-- ==== Sys2Proof/Word.lean ====
section
/-! DEFINITION. The two word types of the core (10_state.md R10, R14). -/

namespace Sys2Proof

/-- Registers, memory cells, operands, `FL` and emitted values are 8-bit unsigned values (R5, R10, R30). -/
abbrev Byte := BitVec 8

/-- A 9-bit address: `pc`, the addresses of fetches, `FAULT_PC` and `FAULT_INFO` (R14, R21). -/
abbrev Addr := BitVec 9

end Sys2Proof
end

