-- ==== Sys2Proof/Config.lean ====
section
/-! DEFINITION. What an implementation fixes and the spec leaves open or decides for itself (00_scope.md R4). -/

namespace Sys2Proof

/-- DESIGN CHOICE (log 1; the spec's decision D5, R25): what each of `x[0]` to `x[7]` holds after reset. Unsafe. -/
def Config.registerReset : Byte := 0x00#8

/-- DESIGN CHOICE (log 1; the spec's decision D5, R25): what `FL` holds after reset. Unsafe. -/
def Config.flReset : Byte := 0x00#8

/-- The open part of `EXIT_CODE_OTHER` (R4, R172, D20): no body, so nothing can be proved of its value (log 16). -/
opaque Config.exitCodeOtherPred : Nat

/-- `EXIT_CODE_OTHER`, "any non-zero value" (R4, D20): an unknown number that is not 0 (log 16). -/
def Config.exitCodeOther : Nat := Config.exitCodeOtherPred + 1

/-- The open part of the exit status of a failed load (R172; 93_implementation_defined.md U10): no body, so nothing can be
proved of its value (log 25). -/
opaque Config.exitCodeLoadFailedPred : Nat

/-- The exit status of a failed load: an unknown number that is not 0, which may or may not be one of the others, since the
"implementer may choose a distinct nonzero code" (R172, U10; log 25). -/
def Config.exitCodeLoadFailed : Nat := Config.exitCodeLoadFailedPred + 1

end Sys2Proof
end

