-- ==== Sys2Proof/Syntax.lean ====
section
/-! DEFINITION. The instructions: one constructor per row of spec/opcode_table.json (30_encoding.md R54). -/

namespace Sys2Proof

/-- The closed set of seven instructions. A register operand is the whole operand byte, not a 3-bit field (R53):
an index of 8 or more is a legal encoding that faults at the register access (R12, R59). -/
inductive Instr where
  /-- HALT, alias HLT: opcode 0x01, format F0 (R100). -/
  | halt
  /-- LOAD_IMMEDIATE, alias LDI: opcode 0x82, format F2, `op1` a register index, `op2` an immediate (R105). -/
  | loadImmediate (op1 op2 : Byte)
  /-- PRINT_REGISTER, alias PRN: opcode 0x47, format F1, `op1` a register index (R110). -/
  | printRegister (op1 : Byte)
  /-- COMPARE, alias CMP: opcode 0xA7, format F2, `op1` and `op2` register indices (R115). -/
  | compare (op1 op2 : Byte)
  /-- JUMP, alias JMP: opcode 0x54, format F1, `op1` the register that holds the target (R120). -/
  | jump (op1 : Byte)
  /-- JUMP_IF_EQUAL, alias JEQ: opcode 0x55, format F1 (R121). -/
  | jumpIfEqual (op1 : Byte)
  /-- JUMP_IF_NOT_EQUAL, alias JNE: opcode 0x56, format F1 (R122). -/
  | jumpIfNotEqual (op1 : Byte)
  deriving DecidableEq, Repr

end Sys2Proof
end

