-- ==== Sys2Proof/Machine/State.lean ====
section
/-! DEFINITION. The state of the core, as plain data (10_state.md), its errors and its reset state. -/

namespace Sys2Proof.Machine

/-- `STATE` (10_state.md R20). Its numeric encoding is `RunState.code` (log 6). -/
inductive RunState where
  | running
  | halted
  | faulted
  deriving DecidableEq, Repr

/-- `FAULT_CAUSE` (R21, R130). Its numeric encoding is `FaultCause.code` (log 6). `programLoad`, code 5, is reserved
for the host's loader; the core never sets it (R135). -/
inductive FaultCause where
  | none
  | unknownOpcode
  | address
  | registerIndex
  | unsupportedOperation
  | programLoad
  deriving DecidableEq, Repr

/-- The four core errors with their information (60_exceptions.md R130 to R134). -/
inductive CoreError where
  /-- UnknownOpcodeError: the opcode byte (R131). -/
  | unknownOpcode (opc : Byte)
  /-- AddressError: the address, 256 or more (R132). -/
  | address (a : Addr)
  /-- RegisterIndexError: the operand byte, 8 or more (R133). -/
  | registerIndex (i : Byte)
  /-- UnsupportedOperationError: the ALU tag (R134). -/
  | unsupportedOperation (tag : BitVec 4)
  deriving DecidableEq, Repr

/-- The error of the host's loader, outside the core (R34, R135). -/
inductive LoadError where
  | programLoadError
  deriving DecidableEq, Repr

/-- The memory array (20_memory.md R30) as its listed cells: addresses below 256 strictly rising, and no cell equal to
what an unlisted address reads as (`Memory.wf`, `Memory.unlisted`). -/
abbrev Memory := List Host.Cell

/-- The whole state of one instance of the core (10_state.md, its opening table; R23: nothing else is state). -/
structure State where
  /-- `x[0]` to `x[7]` (R10). -/
  regs : Vector Byte 8
  /-- `pc`, 9 bits, 0 to 256 (R14). -/
  pc : Addr
  /-- `FL`, bits 2, 1, 0 = L, G, E (R17). -/
  fl : Byte
  /-- `STATE` (R20). -/
  runState : RunState
  /-- `FAULT_CAUSE` (R21). -/
  faultCause : FaultCause
  /-- `FAULT_INFO` (R21). -/
  faultInfo : BitVec 9
  /-- `FAULT_PC` (R21). -/
  faultPc : Addr
  /-- `OUT`, oldest first (R22). -/
  out : List Byte
  /-- `mem[0]` to `mem[255]` (R30). -/
  mem : Memory
  deriving DecidableEq, Repr

/-- Why `step` gives no next state. The core's own faults are not here: a `raise` is a next state, FAULTED, with the
fault fields written (R141). -/
inductive Fault where
  /-- Raised by `step` alone, in a HALTED state: "HALTED is an end state: no further step exists" (R80, R101). Safe. -/
  | noStepHalted
  /-- Raised by `step` alone, in a FAULTED state: "FAULTED is absorbing" (R80, R143). Safe. -/
  | noStepFaulted
  deriving DecidableEq, Repr

/-- Why an instruction has no meaning. -/
inductive Refusal where
  /-- An arm of `exec` that is not modelled, by mnemonic. Raised by no arm of this model. Safe. -/
  | notModelled (mnemonic : String)
  deriving DecidableEq, Repr

/-- The machine right after reset, before any load (R25, R160): `pc` 0, RUNNING, memory all zero (nothing listed), no
fault, no output; the registers and `FL` as Config says (D5, log 1). -/
def State.reset : State where
  regs := Vector.replicate 8 Config.registerReset
  pc := 0#9
  fl := Config.flReset
  runState := .running
  faultCause := .none
  faultInfo := 0#9
  faultPc := 0#9
  out := []
  mem := []

end Sys2Proof.Machine
end

