-- ==== Sys2Proof/Machine/Ops.lean ====
section
/-! DEFINITION. The operations every instruction shares: state updates, memory, `pc`, taking a fault, reset. -/

namespace Sys2Proof.Machine

/-! ### Numeric encodings (10_state.md R20, R21; 60_exceptions.md R130; D11, D12; log 6, log 13) -/

/-- The 2-bit encoding of `STATE` (R20). -/
def RunState.code : RunState → BitVec 2
  | .running => 0
  | .halted => 1
  | .faulted => 2

/-- The 3-bit encoding of `FAULT_CAUSE` (R21, R130). -/
def FaultCause.code : FaultCause → BitVec 3
  | .none => 0
  | .unknownOpcode => 1
  | .address => 2
  | .registerIndex => 3
  | .unsupportedOperation => 4
  | .programLoad => 5

/-- `zext_9` of an 8-bit value (00_scope.md R6, 46_jumps.md R123). -/
def zext9 (v : Byte) : Addr := v.setWidth 9

/-! ### State updates -/

def State.setRegs (s : State) (r : Vector Byte 8) : State := { s with regs := r }
def State.setPc (s : State) (a : Addr) : State := { s with pc := a }
def State.setFl (s : State) (f : Byte) : State := { s with fl := f }
def State.setRunState (s : State) (r : RunState) : State := { s with runState := r }
def State.setOut (s : State) (o : List Byte) : State := { s with out := o }
def State.setMem (s : State) (m : Memory) : State := { s with mem := m }

/-! ### The memory array (20_memory.md R30) -/

/-- What an unlisted address reads as: memory is "fully zeroed" at construction (R30). -/
def Memory.unlisted : Byte := 0x00#8

/-- The listed addresses rise strictly from `lo` and stay below 256, and no cell holds what an unlisted one reads as. -/
def Memory.wfFrom (lo : Nat) : Memory → Bool
  | [] => true
  | (a, v) :: m => decide (lo ≤ a) && decide (a < 256) && decide (v ≠ Memory.unlisted) && Memory.wfFrom (a + 1) m

/-- The canonical form: equal memories are equal lists. -/
def Memory.wf (m : Memory) : Bool := Memory.wfFrom 0 m

/-- `mem[a]`, with no check (R6). -/
def Memory.byteAt : Memory → Nat → Byte
  | [], _ => Memory.unlisted
  | (b, v) :: m, a => if b = a then v else Memory.byteAt m a

/-- `mem[a] <- v`, with no check; keeps the canonical form for `a` below 256. -/
def Memory.store : Memory → Nat → Byte → Memory
  | [], a, v => if v = Memory.unlisted then [] else [(a, v)]
  | (b, w) :: m, a, v =>
    if a < b then (if v = Memory.unlisted then (b, w) :: m else (a, v) :: (b, w) :: m)
    else if a = b then (if v = Memory.unlisted then m else (a, v) :: m)
    else (b, w) :: Memory.store m a v

/-- `MemRead(a, 1)`: "Fails with an AddressError when `address` is outside [0,256)"; no wraparound (R32). -/
def memRead (m : Memory) (a : Addr) : Except CoreError Byte :=
  if a.toNat < 256 then .ok (Memory.byteAt m a.toNat) else .error (.address a)

/-- `MemWrite(a, 1, v)`: the same bounds (R33). No instruction uses it. -/
def memWrite (s : State) (a : Addr) (v : Byte) : Except CoreError State :=
  if a.toNat < 256 then .ok (s.setMem (Memory.store s.mem a.toNat v)) else .error (.address a)

/-- Stores the bytes at consecutive addresses from `a`; a byte that would lie at 256 or beyond is left out. -/
def Memory.storeList : Memory → Nat → List Byte → Memory
  | m, _, [] => m
  | m, a, v :: vs => Memory.storeList (if a < 256 then Memory.store m a v else m) (a + 1) vs

/-! ### The program counter (10_state.md R14, R15) -/

/-- Sequential advance by an instruction's length, in 9 bits (R15, R84). -/
def State.advance (s : State) (len : Addr) : State := s.setPc (s.pc + len)

/-! ### Taking a fault (60_exceptions.md R141), and reset, the only way back (R144, R160) -/

/-- `FAULT_CAUSE` of an error (R130). -/
def CoreError.cause : CoreError → FaultCause
  | .unknownOpcode _ => .unknownOpcode
  | .address _ => .address
  | .registerIndex _ => .registerIndex
  | .unsupportedOperation _ => .unsupportedOperation

/-- `FAULT_INFO` of an error: the byte, the address, the index or the tag, zero-extended to 9 bits (R21, R130). -/
def CoreError.info : CoreError → BitVec 9
  | .unknownOpcode opc => zext9 opc
  | .address a => a
  | .registerIndex i => zext9 i
  | .unsupportedOperation tag => tag.setWidth 9

/-- `raise <Fault>(info)`: STATE, FAULT_CAUSE, FAULT_INFO and FAULT_PC are written and nothing else (R141, R142). -/
def State.raise (s : State) (e : CoreError) : State :=
  { s with runState := .faulted, faultCause := e.cause, faultInfo := e.info, faultPc := s.pc }

/-- Ends a handler that began in `s`: its state if every line ran, else the fault entry from `s` (R6, R142). -/
def finish (s : State) : Except CoreError State → Host.Outcome State Fault Refusal
  | .ok t => .next t
  | .error e => .next (s.raise e)

/-- The `reset` input, asserted in any state: nothing survives (R160). There is no return from a fault (R144). -/
def State.assertReset (_ : State) : State := State.reset

end Sys2Proof.Machine
end

