-- ==== Sys2Proof/Machine/Flags.lean ====
section
/-! DEFINITION. `FL` and the one flag computation (10_state.md R17 to R19, 40_alu.md R74; D3, D4, log 9). -/

namespace Sys2Proof.Machine

/-- `FL.E`, bit 0. -/
def flagE (fl : Byte) : Bool := fl.getLsbD 0

/-- `FL.G`, bit 1. -/
def flagG (fl : Byte) : Bool := fl.getLsbD 1

/-- `FL.L`, bit 2. -/
def flagL (fl : Byte) : Bool := fl.getLsbD 2

/-- `Alu(0x7, a, b)`: the whole new `FL`, exactly one of E, L, G, on unsigned values (R74). -/
def compareFlags (a b : Byte) : Byte :=
  if a = b then 0x01#8 else if a.toNat < b.toNat then 0x04#8 else 0x02#8

end Sys2Proof.Machine
end

