-- ==== Sys2Proof/Machine/Operands.lean ====
section
/-! DEFINITION. The operand forms: a register named by a whole operand byte, and an immediate byte used as it is
(10_state.md R12, 30_encoding.md R53). There is no other form. -/

namespace Sys2Proof.Machine

/-- The stored value of register `k`. -/
def State.reg (s : State) (k : Fin 8) : Byte := s.regs[k]

/-- `x[i]`: the index is the full byte, checked at the access and never masked (R12; D9, log 12). -/
def readReg (s : State) (i : Byte) : Except CoreError Byte :=
  if h : i.toNat < 8 then .ok (s.regs[i.toNat]'h) else .error (.registerIndex i)

/-- `x[i] <- v`, with the same check (R12). -/
def writeReg (s : State) (i : Byte) (v : Byte) : Except CoreError State :=
  if h : i.toNat < 8 then .ok (s.setRegs (s.regs.set i.toNat v h)) else .error (.registerIndex i)

end Sys2Proof.Machine
end

