-- ==== Sys2Proof/Machine/Alu.lean ====
section
/-! DEFINITION. The ALU block (40_alu.md). Only CMP is reached by an instruction; ADD, SUB and MUL are operations of
the block (R70, C3). -/

namespace Sys2Proof.Machine

/-- The four operations of the block (R70). -/
inductive AluOp where
  | add
  | sub
  | mul
  | cmp
  deriving DecidableEq, Repr

/-- The operation a 4-bit tag names (R70; D16, log 8); the other twelve tags name none (R75). -/
def AluOp.ofTag (tag : BitVec 4) : Option AluOp :=
  if tag = 0x0#4 then some .add
  else if tag = 0x1#4 then some .sub
  else if tag = 0x2#4 then some .mul
  else if tag = 0x7#4 then some .cmp
  else none

/-- The 8-bit result: arithmetic modulo 256 (R71 to R73, R76; D2), or the new flags byte (R74). -/
def AluOp.result : AluOp → Byte → Byte → Byte
  | .add, a, b => a + b
  | .sub, a, b => a - b
  | .mul, a, b => a * b
  | .cmp, a, b => compareFlags a b

/-- `Alu(tag, a, b)` on two values (R70, R75). -/
def alu (tag : BitVec 4) (a b : Byte) : Except CoreError Byte :=
  match AluOp.ofTag tag with
  | some op => .ok (op.result a b)
  | none => .error (.unsupportedOperation tag)

/-- Where a result goes: CMP replaces `FL`, the others write `x[regA]` (R70, R78). -/
def AluOp.writeBack (op : AluOp) (s : State) (regA : Byte) (v : Byte) : Except CoreError State :=
  match op with
  | .cmp => .ok (s.setFl v)
  | .add => writeReg s regA v
  | .sub => writeReg s regA v
  | .mul => writeReg s regA v

/-- `compute(operation, regA, regB)`: the tag is checked first (R75), then both registers are read, `regA` first, and
only then anything is written (R71 to R74, R77). -/
def compute (tag : BitVec 4) (regA regB : Byte) (s : State) : Except CoreError State :=
  match AluOp.ofTag tag with
  | none => .error (.unsupportedOperation tag)
  | some op => do
    let a ← readReg s regA
    let b ← readReg s regB
    op.writeBack s regA (op.result a b)

/-- An invocation of the block taken by itself, ending as a step ends: the new state, or the fault entry (R75, R141). -/
def invokeAlu (tag : BitVec 4) (regA regB : Byte) (s : State) : Host.Outcome State Fault Refusal :=
  finish s (compute tag regA regB s)

end Sys2Proof.Machine
end

