-- ==== Sys2Proof/Machine/Compare.lean ====
section
/-! DEFINITION. COMPARE, the one instruction that invokes the ALU (45_compare.md). -/

namespace Sys2Proof.Machine

/-- COMPARE: `FL <- Alu(0x7, x[op1], x[op2]) ; pc <- a + 3` (R115). -/
def execCompare (op1 op2 : Byte) (s : State) : Host.Outcome State Fault Refusal :=
  finish s do
    let t ← compute 0x7#4 op1 op2 s
    return t.advance 3#9

end Sys2Proof.Machine
end

