-- ==== Sys2Proof/Machine/Jump.lean ====
section
/-! DEFINITION. The three jumps and the jump-target logic (46_jumps.md). -/

namespace Sys2Proof.Machine

/-- `t <- x[op1] ; pc <- zext_9(t)`: the target is the register's value, absolute, any byte (R123; D25, log 10). -/
def jumpThrough (op1 : Byte) (s : State) : Except CoreError State := do
  let t ← readReg s op1
  return s.setPc (zext9 t)

/-- A conditional jump: untaken it goes to `a + 2` and does not access the register (R124; D9, log 12). -/
def jumpWhen (taken : Bool) (op1 : Byte) (s : State) : Except CoreError State :=
  if taken then jumpThrough op1 s else .ok (s.advance 2#9)

/-- JUMP (R120). -/
def execJump (op1 : Byte) (s : State) : Host.Outcome State Fault Refusal :=
  finish s (jumpThrough op1 s)

/-- JUMP_IF_EQUAL: taken when `FL.E = 1` (R121). -/
def execJumpIfEqual (op1 : Byte) (s : State) : Host.Outcome State Fault Refusal :=
  finish s (jumpWhen (flagE s.fl) op1 s)

/-- JUMP_IF_NOT_EQUAL: taken when `FL.E = 0` (R122). -/
def execJumpIfNotEqual (op1 : Byte) (s : State) : Host.Outcome State Fault Refusal :=
  finish s (jumpWhen (!flagE s.fl) op1 s)

end Sys2Proof.Machine
end

