-- ==== Sys2Proof/Machine/Move.lean ====
section
/-! DEFINITION. Data movement: LOAD_IMMEDIATE (43_load_immediate.md). -/

namespace Sys2Proof.Machine

/-- LOAD_IMMEDIATE: `x[op1] <- op2 ; pc <- a + 3` (R105). -/
def execLoadImmediate (op1 op2 : Byte) (s : State) : Host.Outcome State Fault Refusal :=
  finish s do
    let t ← writeReg s op1 op2
    return t.advance 3#9

end Sys2Proof.Machine
end

