-- ==== Sys2Proof/Machine/Output.lean ====
section
/-! DEFINITION. The output port: PRINT_REGISTER and `Emit` (44_print_register.md). -/

namespace Sys2Proof.Machine

/-- `Emit(v)`: appends `v` to `OUT`; never blocks and never fails (R111, R112; D14, log 7). -/
def State.emit (s : State) (v : Byte) : State := s.setOut (s.out ++ [v])

/-- PRINT_REGISTER: `v <- x[op1] ; Emit(v) ; pc <- a + 2` (R110). -/
def execPrintRegister (op1 : Byte) (s : State) : Host.Outcome State Fault Refusal :=
  finish s do
    let v ← readReg s op1
    return (s.emit v).advance 2#9

end Sys2Proof.Machine
end

