-- ==== Sys2Proof/Machine/System.lean ====
section
/-! DEFINITION. HALT, the one system instruction (42_halt.md). -/

namespace Sys2Proof.Machine

/-- HALT: `pc <- 0 ; STATE <- HALTED` (R100). -/
def execHalt (s : State) : Host.Outcome State Fault Refusal :=
  .next ((s.setPc 0#9).setRunState .halted)

end Sys2Proof.Machine
end

