-- ==== Sys2Proof/Machine/Dispatch.lean ====
section
/-! DEFINITION. `exec`: one arm per instruction (41_execution_engine.md R81, R82). -/

namespace Sys2Proof.Machine

def exec (i : Instr) (s : State) : Host.Outcome State Fault Refusal :=
  match i with
  | .halt => Sys2Proof.Machine.execHalt s
  | .loadImmediate op1 op2 => Sys2Proof.Machine.execLoadImmediate op1 op2 s
  | .printRegister op1 => Sys2Proof.Machine.execPrintRegister op1 s
  | .compare op1 op2 => Sys2Proof.Machine.execCompare op1 op2 s
  | .jump op1 => Sys2Proof.Machine.execJump op1 s
  | .jumpIfEqual op1 => Sys2Proof.Machine.execJumpIfEqual op1 s
  | .jumpIfNotEqual op1 => Sys2Proof.Machine.execJumpIfNotEqual op1 s

end Sys2Proof.Machine
end

