-- ==== Sys2Proof/Decode.lean ====
section
/-! DEFINITION. The dispatch table, the decoder and the encoder (30_encoding.md R50 to R59). -/

namespace Sys2Proof

/-- What the dispatch table gives for an opcode: how many operand bytes follow, and the instruction they make
(41_execution_engine.md R82; formats F0, F1, F2 of R51). -/
inductive Handler where
  /-- Format F0: no operand byte. -/
  | f0 (instr : Instr)
  /-- Format F1: one operand byte. -/
  | f1 (instr : Byte → Instr)
  /-- Format F2: two operand bytes, `op1` then `op2`. -/
  | f2 (instr : Byte → Byte → Instr)

/-- Why a list of bytes is no instruction. -/
inductive DecodeError where
  /-- The first byte is none of the seven opcodes (R56). -/
  | unknownOpcode (opc : Byte)
  /-- Byte number `n` of the instruction (0 the opcode, 1 `op1`, 2 `op2`) lies past the end of the bytes given. -/
  | missingByte (n : Nat)
  deriving DecidableEq, Repr

/-- The dispatch table (R54, R82): all eight bits of the opcode byte are compared (R55); any other byte has no entry
(R56). The byte values are exact (C2). -/
def dispatch (opc : Byte) : Option Handler :=
  if opc = 0x01#8 then some (.f0 .halt)
  else if opc = 0x82#8 then some (.f2 .loadImmediate)
  else if opc = 0x47#8 then some (.f1 .printRegister)
  else if opc = 0xA7#8 then some (.f2 .compare)
  else if opc = 0x54#8 then some (.f1 .jump)
  else if opc = 0x55#8 then some (.f1 .jumpIfEqual)
  else if opc = 0x56#8 then some (.f1 .jumpIfNotEqual)
  else none

/-- Puts the operand bytes of a format together: `op1` first, then `op2` (R36, R50; D7). -/
def assemble : Handler → List Byte → Except DecodeError (Instr × List Byte)
  | .f0 i, rest => .ok (i, rest)
  | .f1 _, [] => .error (.missingByte 1)
  | .f1 mk, op1 :: rest => .ok (mk op1, rest)
  | .f2 _, [] => .error (.missingByte 1)
  | .f2 _, [_] => .error (.missingByte 2)
  | .f2 mk, op1 :: op2 :: rest => .ok (mk op1 op2, rest)

/-- Decodes the instruction at the head of a list of bytes and gives the bytes after it. An unknown opcode is
reported before any operand is looked for (R56, R137). -/
def decode : List Byte → Except DecodeError (Instr × List Byte)
  | [] => .error (.missingByte 0)
  | opc :: rest =>
    match dispatch opc with
    | none => .error (.unknownOpcode opc)
    | some h => assemble h rest

/-- The bytes of an instruction, lowest address first (R51, R54). -/
def encode : Instr → List Byte
  | .halt => [0x01#8]
  | .loadImmediate op1 op2 => [0x82#8, op1, op2]
  | .printRegister op1 => [0x47#8, op1]
  | .compare op1 op2 => [0xA7#8, op1, op2]
  | .jump op1 => [0x54#8, op1]
  | .jumpIfEqual op1 => [0x55#8, op1]
  | .jumpIfNotEqual op1 => [0x56#8, op1]

/-- The length in bytes that the first byte alone decides (R58); an unknown opcode has none. -/
def lengthFromOpcode (opc : Byte) : Option Nat :=
  match dispatch opc with
  | some (.f0 _) => some 1
  | some (.f1 _) => some 2
  | some (.f2 _) => some 3
  | none => none

/-- The three bytes of the opcode table's word `w` of `nbits` bits, first byte in bits 7 to 0; every bit above
`nbits` is 0. -/
def tableBytes (nbits w : Nat) : List Byte :=
  [BitVec.ofNat 8 (w % 2 ^ nbits), BitVec.ofNat 8 (w % 2 ^ nbits / 256), BitVec.ofNat 8 (w % 2 ^ nbits / 65536)]

/-- The instruction the decoder reads from a word numbered as spec/opcode_table.json numbers it. -/
def decodeTableWord (nbits w : Nat) : Option Instr :=
  match decode (tableBytes nbits w) with
  | .ok (i, _) => some i
  | .error _ => none

end Sys2Proof
end

