-- ==== Sys2Proof/Machine/Fetch.lean ====
section
/-! DEFINITION. Fetching an instruction, and the frame of a step (41_execution_engine.md R81 to R83). -/

namespace Sys2Proof.Machine

/-- The opcode fetch, the dispatch and the operand fetches of R81, in ascending address order and before anything else
(R83; D8, log 11). No operand is fetched for an unknown opcode (R56, R131). -/
def fetchInstr (s : State) : Except CoreError Instr := do
  let opc ← memRead s.mem s.pc
  match dispatch opc with
  | none => .error (.unknownOpcode opc)
  | some (.f0 i) => return i
  | some (.f1 mk) =>
    let op1 ← memRead s.mem (s.pc + 1#9)
    return mk op1
  | some (.f2 mk) =>
    let op1 ← memRead s.mem (s.pc + 1#9)
    let op2 ← memRead s.mem (s.pc + 2#9)
    return mk op1 op2

/-- The addresses a step from `s` drives on the memory port, in order (10_state.md R26, R83, R87): an address of 256
or more is never driven, and no step exists unless RUNNING. -/
def fetchAddrs (s : State) : List Addr :=
  if s.runState = .running ∧ s.pc.toNat < 256 then
    s.pc :: match dispatch (Memory.byteAt s.mem s.pc.toNat) with
      | none => []
      | some (.f0 _) => []
      | some (.f1 _) => [s.pc + 1#9].filter (fun a => a.toNat < 256)
      | some (.f2 _) => [s.pc + 1#9, s.pc + 2#9].filter (fun a => a.toNat < 256)
  else []

/-- The bytes from `pc` to the end of memory, lowest address first: what an instruction is decoded from (R50, R63). -/
def codeBytes (s : State) : List Byte :=
  (List.range (256 - s.pc.toNat)).map (fun k => Memory.byteAt s.mem (s.pc.toNat + k))

/-- One step around the handlers `ex`: it exists only when RUNNING (R80); the fetch, then the handler (R81). -/
def stepWith (ex : Instr → State → Host.Outcome State Fault Refusal) (s : State) : Host.Outcome State Fault Refusal :=
  match s.runState with
  | .halted => .fault .noStepHalted
  | .faulted => .fault .noStepFaulted
  | .running =>
    match fetchInstr s with
    | .ok i => ex i s
    | .error e => .next (s.raise e)

/-- `s` with the opcode table's word placed at `pc`, for an instruction that is to be fetched next (log 4). -/
def placeFetchWord (s : State) (nbits w : Nat) : State :=
  s.setMem (Memory.storeList s.mem s.pc.toNat (tableBytes nbits w))

end Sys2Proof.Machine
end

