-- ==== Sys2Proof/Machine/Step.lean ====
section
/-! DEFINITION. The step (41_execution_engine.md R81). -/

namespace Sys2Proof.Machine

/-- One step of the core (R81): one whole instruction (R88). -/
def step (s : State) : Host.Outcome State Fault Refusal := stepWith exec s

/-- `s` with an instruction stored where `step` fetches next (log 4): it stands for the host's load of R34. -/
def State.withFetchWord (s : State) (nbits w : Nat) : State := placeFetchWord s nbits w

end Sys2Proof.Machine
end

