-- ==== Sys2Proof/WellFormed.lean ====
section
/-! DEFINITION. Checks on instructions and program images. `Instr.wellFormed` restricts neither the decoder, nor the
encoder, nor `exec`: an index of 8 or more decodes and runs, and faults at its access (R59; log 19). -/

namespace Sys2Proof

/-- A register-index operand names one of the eight registers (10_state.md R12, 30_encoding.md R53). -/
def isRegisterIndex (i : Byte) : Bool := decide (i.toNat < 8)

/-- Every register-index operand names a register. The immediate of LOAD_IMMEDIATE may be any byte (R53, R105). -/
def Instr.wellFormed : Instr → Bool
  | .halt => true
  | .loadImmediate op1 _ => isRegisterIndex op1
  | .printRegister op1 => isRegisterIndex op1
  | .compare op1 op2 => isRegisterIndex op1 && isRegisterIndex op2
  | .jump op1 => isRegisterIndex op1
  | .jumpIfEqual op1 => isRegisterIndex op1
  | .jumpIfNotEqual op1 => isRegisterIndex op1

/-- A program image fits the memory array: at most 256 bytes (20_memory.md R34). -/
def imageFits (image : List Byte) : Bool := decide (image.length ≤ 256)

end Sys2Proof
end

