-- ==== Sys2Proof/Machine/Loader.lean ====
section
/-! DEFINITION. The host's load path, used once between reset and the first step (20_memory.md R34, 70_reset_and_hazards.md
R161, R162; D15, log 15). No instruction uses it. -/

namespace Sys2Proof.Machine

/-- `bulkLoad(startAddress, bytes)`: "fails if the sequence would overflow the array" (R34). -/
def bulkLoad (s : State) (start : Nat) (bytes : List Byte) : Except LoadError State :=
  if start + bytes.length ≤ 256 then .ok (s.setMem (Memory.storeList s.mem start bytes)) else .error .programLoadError

/-- `Load(b)`: the image goes to address 0 and up; more than 256 bytes is a ProgramLoadError (R34). -/
def load (s : State) (image : List Byte) : Except LoadError State :=
  if imageFits image then bulkLoad s 0 image else .error .programLoadError

/-- The launch state for an image: reset, then load (R161, R162); a failed load starts nothing (R135). -/
def launch (image : List Byte) : Except LoadError State := load State.reset image

end Sys2Proof.Machine
end

