-- ==== Sys2Proof/Machine/Run.lean ====
section
/-! DEFINITION. The run with fuel (41_execution_engine.md R89) and the optional ceiling (R90). -/

namespace Sys2Proof.Machine

/-- `Run(s, fuel)` (R89): running out of fuel says nothing of the core. -/
def run (s : State) : Nat → State
  | 0 => s
  | fuel + 1 =>
    match step s with
    | .next t => run t fuel
    | .fault _ => s
    | .refused _ => s

/-- A platform's `STEP_LIMIT` (R90; D19, log 17): `none`, the default, is the core itself; a ceiling only cuts the fuel and
changes no state. -/
def runUnderCeiling (limit : Option Nat) (s : State) (fuel : Nat) : State :=
  match limit with
  | none => run s fuel
  | some n => run s (min n fuel)

end Sys2Proof.Machine
end

