-- ==== Sys2Proof/Machine/Ports.lean ====
section
/-! DEFINITION. What the outside sees: the signal groups of 10_state.md R26 as views of a state or of a step, and the
host's duties that the spec records (44_print_register.md R113, 60_exceptions.md R145 and R151,
70_reset_and_hazards.md R172).
Nothing here is state, and no instruction reads it. -/

namespace Sys2Proof.Machine

/-- The output port during the step from `s` to `t`: `some v` is `out_valid = 1` with `out_data = v`, `none` is
`out_valid = 0` (R26, R111; log 7). -/
def outPort (s t : State) : Option Byte := t.out[s.out.length]?

/-- What `mem_addr` carries during the step from `s`, in order (R26): the low eight bits of each fetch address. -/
def memAddrPort (s : State) : List Byte := (fetchAddrs s).map (fun a => a.setWidth 8)

/-- The status group: `state`, `fault_cause`, `fault_info`, `fault_pc` (R26). -/
structure StatusPort where
  state : BitVec 2
  faultCause : BitVec 3
  faultInfo : BitVec 9
  faultPc : BitVec 9
  deriving DecidableEq, Repr

def statusPort (s : State) : StatusPort :=
  { state := s.runState.code, faultCause := s.faultCause.code, faultInfo := s.faultInfo, faultPc := s.faultPc }

/-- The debug view: `dbg_pc`, `dbg_x0` to `dbg_x7`, `dbg_fl`, read-only (R26). -/
structure DebugView where
  pc : Addr
  x : Vector Byte 8
  fl : Byte
  deriving DecidableEq, Repr

def debugView (s : State) : DebugView := { pc := s.pc, x := s.regs, fl := s.fl }

/-- One line of the optional trace (R151): `pc`, the three bytes from it, the registers. A byte at 256 or beyond is
`none`: what is printed there is not decided (D28, log 18). -/
structure TraceLine where
  pc : Addr
  bytes : List (Option Byte)
  x : Vector Byte 8
  deriving DecidableEq, Repr

def traceLine (s : State) : TraceLine :=
  { pc := s.pc
    bytes := [0, 1, 2].map (fun k =>
      if s.pc.toNat + k < 256 then some (Memory.byteAt s.mem (s.pc.toNat + k)) else none)
    x := s.regs }

/-- A decimal digit as a character. -/
def digitChar (n : Nat) : Char := Char.ofNat (48 + n % 10)

/-- The decimal text of an unsigned byte: no sign, no leading zeros, no padding (R113). -/
def decimalText (v : Byte) : List Char :=
  if v.toNat < 10 then [digitChar v.toNat]
  else if v.toNat < 100 then [digitChar (v.toNat / 10), digitChar v.toNat]
  else [digitChar (v.toNat / 100), digitChar (v.toNat / 10), digitChar v.toNat]

/-- What the host writes for the values emitted so far: each in decimal, followed by one line feed (R113; log 20). -/
def hostOutput (s : State) : List Char := s.out.flatMap (fun v => decimalText v ++ ['\n'])

/-- What the spec fixes of a message of the host: neither its wording nor the stream of the first (R145, R172; log 25). -/
inductive HostMessage where
  /-- "an error naming the unrecognized byte" (R145). -/
  | unrecognizedOpcode (opc : Byte)
  /-- The "message to standard error" of a failed load (R172). -/
  | loadFailed
  deriving DecidableEq, Repr

/-- How the process ends: its exit status, and what the spec fixes of its error message. `none` fixes no message. -/
structure HostReport where
  status : Nat
  message : Option HostMessage
  deriving DecidableEq, Repr

/-- The message for an end state: for UnknownOpcodeError the byte that `FAULT_INFO` holds is named; "For the other faults
band2 fixes no message" (R145). -/
def hostMessage (s : State) : Option HostMessage :=
  if s.runState = .faulted ∧ s.faultCause = .unknownOpcode then some (.unrecognizedOpcode (s.faultInfo.setWidth 8))
  else none

/-- The process exit status the host sets for an end state (R172); a RUNNING state is no end state (R173). -/
def exitStatus (s : State) : Option Nat :=
  match s.runState with
  | .running => none
  | .halted => some 0
  | .faulted => if s.faultCause = .unknownOpcode then some 1 else some Config.exitCodeOther

/-- The four rows of R172: the report on a load that failed, so that the core never ran, or on the state that a loaded core
has come to; a RUNNING core has none yet. -/
def hostReport : Except LoadError State → Option HostReport
  | .error _ => some { status := Config.exitCodeLoadFailed, message := some .loadFailed }
  | .ok s => (exitStatus s).map (fun status => { status := status, message := hostMessage s })

/-- The report on an image given to the host: launched (R162) and run for `fuel` steps. -/
def processEnd (image : List Byte) (fuel : Nat) : Option HostReport :=
  hostReport ((launch image).map (fun s => run s fuel))

end Sys2Proof.Machine
end

