-- ==== Sys2Proof/Safety.lean ====
section
/-! DEFINITION. The words claims use: what stays the same, what a fault leaves, the invariant of the state, how a run
ends. -/

namespace Sys2Proof.Machine

/-! ### Frames -/

/-- All eight general registers read the same. -/
def SameRegs (s t : State) : Prop := ∀ k : Fin 8, t.reg k = s.reg k

/-- Every register but `k` reads the same. -/
def SameRegsExcept (k : Fin 8) (s t : State) : Prop := ∀ j : Fin 8, j ≠ k → t.reg j = s.reg j

/-- Every byte of memory reads the same. -/
def SameMemory (s t : State) : Prop := ∀ a : Nat, Memory.byteAt t.mem a = Memory.byteAt s.mem a

/-- `FAULT_CAUSE`, `FAULT_INFO` and `FAULT_PC` are the same. -/
def SameFaultFields (s t : State) : Prop :=
  t.faultCause = s.faultCause ∧ t.faultInfo = s.faultInfo ∧ t.faultPc = s.faultPc

/-! ### Faults -/

/-- The state a fault leaves (60_exceptions.md R141): the four fault fields written out, all else as in `s`. -/
def faultedAs (s : State) (cause : FaultCause) (info : BitVec 9) : State :=
  { s with runState := .faulted, faultCause := cause, faultInfo := info, faultPc := s.pc }

/-- `o` is the fault entry for `e` from `s`: a next state that differs from `s` in the four fault fields alone, so that the
step or handler wrote no register, flag, output, memory or `pc` (R141, R142). -/
def Raises (o : Host.Outcome State Fault Refusal) (s : State) (e : CoreError) : Prop :=
  ∃ t, o = .next t ∧ t.runState = .faulted ∧ t.faultCause = e.cause ∧ t.faultInfo = e.info ∧ t.faultPc = s.pc ∧
    SameRegs s t ∧ t.pc = s.pc ∧ t.fl = s.fl ∧ t.out = s.out ∧ SameMemory s t

/-- The fault fields are clear (10_state.md R21: while RUNNING or HALTED all three are 0). -/
def FaultFieldsClear (s : State) : Prop := s.faultCause = .none ∧ s.faultInfo = 0#9 ∧ s.faultPc = 0#9

/-- What a run can record (R21, R131 to R136): the cause is 1, 2 or 3 with the information that cause gives, and
`FAULT_PC` is `pc`. UnsupportedOperationError and ProgramLoadError never arise in a run (R134, R135). -/
def FaultRecordLegal (s : State) : Prop :=
  s.faultPc = s.pc ∧
  ((s.faultCause = .unknownOpcode ∧ s.pc.toNat < 256 ∧
      s.faultInfo = zext9 (Memory.byteAt s.mem s.pc.toNat) ∧
      lengthFromOpcode (Memory.byteAt s.mem s.pc.toNat) = none) ∨
   (s.faultCause = .address ∧ 254 ≤ s.pc.toNat ∧ s.faultInfo = 256#9) ∨
   (s.faultCause = .registerIndex ∧ 8 ≤ s.faultInfo.toNat ∧ s.faultInfo.toNat < 256))

/-! ### The invariant -/

/-- What every state of a run satisfies: memory is canonical and below 256, `pc` is 0 to 256 (R16), `FL` is one of its
four reachable values (R19), HALTED leaves `pc` 0 (R100), and the fault fields fit the run state (R21). -/
structure Inv (s : State) : Prop where
  memCanonical : Memory.wf s.mem = true
  pcInRange : s.pc.toNat ≤ 256
  flLegal : s.fl = 0x00#8 ∨ s.fl = 0x01#8 ∨ s.fl = 0x02#8 ∨ s.fl = 0x04#8
  haltedPc : s.runState = .halted → s.pc = 0#9
  faultClear : s.runState ≠ .faulted → FaultFieldsClear s
  faultRecord : s.runState = .faulted → FaultRecordLegal s

/-! ### Runs -/

/-- A run has ended when, and only when, STATE is HALTED or FAULTED (70_reset_and_hazards.md R173). -/
def Ended (s : State) : Prop := s.runState = .halted ∨ s.runState = .faulted

/-- A run from `s` that never faults. -/
def NeverFaults (s : State) : Prop := ∀ fuel, (run s fuel).runState ≠ .faulted

/-- A run from `s` that reaches HALTED, the only successful end (R173). -/
def ReachesHalt (s : State) : Prop := ∃ fuel, (run s fuel).runState = .halted

end Sys2Proof.Machine
end

