-- ==== Sys2Proof/Certificates/Slice0/Obligations.lean ====
section
/-! DEFINITION. The statements for the provers. A docstring names the rule of spec/ it formalises, or the spec's decision
D<n> and the log entry it rests on. -/

open Sys2Proof Sys2Proof.Machine

/-! ### Encoding -/

/-- A list of bytes decodes to an instruction and a rest exactly when it is that instruction's encoding followed by the
rest: every operand at every value (30_encoding.md, sections 1 to 3; op1 before op2 is D7, log 11). -/
def Obligations.DecodeAndEncodeAgree : Prop :=
  ∀ (bytes : List Byte) (i : Instr) (rest : List Byte), decode bytes = .ok (i, rest) ↔ bytes = encode i ++ rest

/-- Words written out bit by bit from the table of 30_encoding.md section 3, their operand bytes 0, small, 8 or more, and
255; that `op1` is the byte before `op2` is D7 (log 11). -/
def Obligations.WrittenWordsDecode : Prop :=
  decode [0b00000001#8] = .ok (.halt, []) ∧
  decode [0b10000010#8, 0b00000011#8, 0b11001000#8] = .ok (.loadImmediate 3 200, []) ∧
  decode [0b01000111#8, 0b00000110#8] = .ok (.printRegister 6, []) ∧
  decode [0b10100111#8, 0b00000001#8, 0b00000111#8] = .ok (.compare 1 7, []) ∧
  decode [0b01010100#8, 0b11111111#8] = .ok (.jump 255, []) ∧
  decode [0b01010101#8, 0b00000010#8] = .ok (.jumpIfEqual 2, []) ∧
  decode [0b01010110#8, 0b00001001#8] = .ok (.jumpIfNotEqual 9, []) ∧
  decode [0b10000010#8, 0b00000000#8, 0b00000111#8] = .ok (.loadImmediate 0 7, []) ∧
  decode [0b10100111#8, 0b00000101#8, 0b00000000#8] = .ok (.compare 5 0, []) ∧
  decode [0b01000111#8, 0b00000000#8] = .ok (.printRegister 0, [])

/-- R55: all eight bits of the opcode byte are compared with the seven values; a match selects the handler and its
operand count, no match raises UnknownOpcodeError, and only the byte decides. -/
def Obligations.DispatchComparesTheWholeByte : Prop :=
  dispatch 0x01#8 = some (.f0 .halt) ∧ dispatch 0x82#8 = some (.f2 .loadImmediate) ∧
  dispatch 0x47#8 = some (.f1 .printRegister) ∧ dispatch 0xA7#8 = some (.f2 .compare) ∧
  dispatch 0x54#8 = some (.f1 .jump) ∧ dispatch 0x55#8 = some (.f1 .jumpIfEqual) ∧
  dispatch 0x56#8 = some (.f1 .jumpIfNotEqual) ∧
  ∀ opc : Byte, opc ∉ [0x01#8, 0x82#8, 0x47#8, 0xA7#8, 0x54#8, 0x55#8, 0x56#8] →
    dispatch opc = none ∧ (∀ rest, decode (opc :: rest) = .error (.unknownOpcode opc)) ∧
    ∀ s : State, s.pc.toNat < 256 → Memory.byteAt s.mem s.pc.toNat = opc →
      fetchInstr s = .error (.unknownOpcode opc)

/-! ### The step -/

/-- When the bytes from `pc` decode to an instruction, the step of a RUNNING state is `exec` of it: the fetch changes no
state and the handler itself moves `pc` (41_execution_engine.md section 2). -/
def Obligations.StepRunsDecodedInstruction : Prop :=
  ∀ (s : State) (i : Instr) (rest : List Byte), s.runState = .running → decode (codeBytes s) = .ok (i, rest) →
    step s = exec i s

/-- Where the bytes from `pc` decode to nothing, the step is a fault entry: UnknownOpcodeError with the byte, or, when
the instruction runs past the end of memory, AddressError(256) (60_exceptions.md sections 1 and 3; D6, D8, D10 to D13,
log 10 to 13). -/
def Obligations.StepFaultsWhereNothingDecodes : Prop :=
  ∀ s : State, s.runState = .running →
    (∀ opc, decode (codeBytes s) = .error (.unknownOpcode opc) → Raises (step s) s (.unknownOpcode opc)) ∧
    (∀ n, decode (codeBytes s) = .error (.missingByte n) → s.pc.toNat ≤ 256 → Raises (step s) s (.address 256#9))

/-- A step exists exactly when RUNNING, and then it is a next state, never a refusal; HALTED and FAULTED have none
(41_execution_engine.md section 1; FAULTED is D11, log 13; how "no step" is answered is log 2). -/
def Obligations.AStepExistsExactlyWhenRunning : Prop :=
  ∀ s : State, ((∃ t, step s = .next t) ↔ s.runState = .running) ∧
    (s.runState = .halted → step s = .fault .noStepHalted) ∧ (s.runState = .faulted → step s = .fault .noStepFaulted)

/-- An opcode placed where the step fetches next is the instruction that the step runs (log 4). -/
def Obligations.PlacedWordIsRunNext : Prop :=
  ∀ (s : State) (nbits w : Nat) (i : Instr), s.runState = .running → Memory.wf s.mem = true → s.pc.toNat ≤ 253 →
    decodeTableWord nbits w = some i → step (s.withFetchWord nbits w) = exec i (s.withFetchWord nbits w)

/-! ### Faults -/

/-- What `raise` writes for each of the four errors, in the numeric codes, and that it writes nothing else
(60_exceptions.md sections 1 and 4; D11 to D13, log 13). -/
def Obligations.RaiseWritesOnlyTheFaultFields : Prop :=
  ∀ (s : State) (e : CoreError),
    (s.raise e).runState.code = 2#2 ∧ (s.raise e).faultPc = s.pc ∧ SameRegs s (s.raise e) ∧ (s.raise e).pc = s.pc ∧
    (s.raise e).fl = s.fl ∧ (s.raise e).out = s.out ∧ (s.raise e).mem = s.mem ∧
    (∀ opc, e = .unknownOpcode opc → (s.raise e).faultCause.code = 1#3 ∧ (s.raise e).faultInfo.toNat = opc.toNat) ∧
    (∀ a, e = .address a → (s.raise e).faultCause.code = 2#3 ∧ (s.raise e).faultInfo = a) ∧
    (∀ i, e = .registerIndex i → (s.raise e).faultCause.code = 3#3 ∧ (s.raise e).faultInfo.toNat = i.toNat) ∧
    (∀ tag, e = .unsupportedOperation tag →
      (s.raise e).faultCause.code = 4#3 ∧ (s.raise e).faultInfo.toNat = tag.toNat)

/-- A step that faults changes the four fault fields and nothing else, whichever instruction faults (60_exceptions.md
section 4, "Faults are precise"; D11, log 13). -/
def Obligations.FaultingStepsArePrecise : Prop :=
  ∀ s t : State, step s = .next t → t.runState = .faulted → t = faultedAs s t.faultCause t.faultInfo

/-- The complete fault matrix of 60_exceptions.md section 1, with the order of section 3 built in: a step that faults does
so for one of these reasons, with this information (D8 to D13, log 11 to 13). -/
def Obligations.FaultMatrixIsComplete : Prop :=
  ∀ s t : State, s.pc.toNat ≤ 256 → step s = .next t → t.runState = .faulted →
    let a := s.pc.toNat
    let opc := Memory.byteAt s.mem a
    let op1 := Memory.byteAt s.mem (a + 1)
    let op2 := Memory.byteAt s.mem (a + 2)
    (t.faultCause = .address ∧ t.faultInfo = 256#9 ∧
      (a = 256 ∨ (a = 255 ∧ opc ∈ [0x82#8, 0x47#8, 0xA7#8, 0x54#8, 0x55#8, 0x56#8]) ∨
        (a = 254 ∧ opc ∈ [0x82#8, 0xA7#8]))) ∨
    (t.faultCause = .unknownOpcode ∧ t.faultInfo = zext9 opc ∧ a < 256 ∧
      opc ∉ [0x01#8, 0x82#8, 0x47#8, 0xA7#8, 0x54#8, 0x55#8, 0x56#8]) ∨
    (t.faultCause = .registerIndex ∧ t.faultInfo = zext9 op1 ∧ 8 ≤ op1.toNat ∧ a < 255 ∧
      ((opc = 0x82#8 ∧ a < 254) ∨ opc = 0x47#8 ∨ (opc = 0xA7#8 ∧ a < 254) ∨ opc = 0x54#8 ∨
        (opc = 0x55#8 ∧ flagE s.fl = true) ∨ (opc = 0x56#8 ∧ flagE s.fl = false))) ∨
    (t.faultCause = .registerIndex ∧ t.faultInfo = zext9 op2 ∧ op1.toNat < 8 ∧ 8 ≤ op2.toNat ∧ a < 254 ∧
      opc = 0xA7#8)

/-! ### The invariant -/

/-- Every step keeps the invariant: canonical memory, `pc` 0 to 256, `FL` one of its four values, HALTED with `pc` 0, the
fault fields fitting the run state (`Inv`; it holds the spec's D4, D6, D11 to D13). -/
def Obligations.EveryStepKeepsTheInvariant : Prop := ∀ s t : State, Inv s → step s = .next t → Inv t

/-- The reset state meets the invariant; that `FL` is 0 there is the spec's D5 (log 1). -/
def Obligations.ResetMeetsTheInvariant : Prop := Inv State.reset

/-- The launch state of every image that loads meets the invariant, and so does every state of its run; that `FL` is 0 at
launch is the spec's D5 (log 1). -/
def Obligations.EveryLaunchedRunMeetsTheInvariant : Prop :=
  ∀ (image : List Byte) (s : State), launch image = .ok s → ∀ fuel, Inv (run s fuel)

/-! ### The meanings: result, frame and completion -/

/-- HALT always completes: `pc` 0, HALTED, nothing else. -/
def Obligations.HaltCompletes : Prop :=
  ∀ s : State, ∃ t, exec .halt s = .next t ∧ t.pc = 0#9 ∧ t.runState = .halted ∧ SameRegs s t ∧ t.fl = s.fl ∧
    SameFaultFields s t ∧ t.out = s.out ∧ SameMemory s t

/-- LOAD_IMMEDIATE with a legal register completes: `x[op1]` is the immediate, `pc` advances by 3, nothing else. -/
def Obligations.LoadImmediateCompletes : Prop :=
  ∀ (s : State) (op1 op2 : Byte) (h : op1.toNat < 8),
    ∃ t, exec (.loadImmediate op1 op2) s = .next t ∧ t.reg ⟨op1.toNat, h⟩ = op2 ∧
      SameRegsExcept ⟨op1.toNat, h⟩ s t ∧ t.pc = s.pc + 3#9 ∧ t.fl = s.fl ∧ t.runState = s.runState ∧
      SameFaultFields s t ∧ t.out = s.out ∧ SameMemory s t

/-- PRINT_REGISTER with a legal register completes: its value is appended to `OUT`, `pc` advances by 2, nothing else. -/
def Obligations.PrintRegisterCompletes : Prop :=
  ∀ (s : State) (op1 : Byte) (h : op1.toNat < 8),
    ∃ t, exec (.printRegister op1) s = .next t ∧ t.out = s.out ++ [s.reg ⟨op1.toNat, h⟩] ∧ t.pc = s.pc + 2#9 ∧
      SameRegs s t ∧ t.fl = s.fl ∧ t.runState = s.runState ∧ SameFaultFields s t ∧ SameMemory s t

/-- COMPARE with legal registers completes: `FL` is 0x01, 0x04 or 0x02 as `x[op1]` is equal to, below or above `x[op2]` as
unsigned numbers, whatever `FL` was; `pc` advances by 3, nothing else. The unsigned order is D3, the bits are D4 (log 8,
log 9). -/
def Obligations.CompareCompletes : Prop :=
  ∀ (s : State) (op1 op2 : Byte) (h1 : op1.toNat < 8) (h2 : op2.toNat < 8),
    ∃ t, exec (.compare op1 op2) s = .next t ∧
      ((s.reg ⟨op1.toNat, h1⟩).toNat = (s.reg ⟨op2.toNat, h2⟩).toNat → t.fl = 0x01#8) ∧
      ((s.reg ⟨op1.toNat, h1⟩).toNat < (s.reg ⟨op2.toNat, h2⟩).toNat → t.fl = 0x04#8) ∧
      ((s.reg ⟨op2.toNat, h2⟩).toNat < (s.reg ⟨op1.toNat, h1⟩).toNat → t.fl = 0x02#8) ∧
      t.pc = s.pc + 3#9 ∧ SameRegs s t ∧ t.runState = s.runState ∧ SameFaultFields s t ∧ t.out = s.out ∧
      SameMemory s t

/-- JUMP with a legal register completes: `pc` is the register's value, zero-extended (D25, log 10), nothing else. -/
def Obligations.JumpCompletes : Prop :=
  ∀ (s : State) (op1 : Byte) (h : op1.toNat < 8),
    ∃ t, exec (.jump op1) s = .next t ∧ t.pc.toNat = (s.reg ⟨op1.toNat, h⟩).toNat ∧ SameRegs s t ∧ t.fl = s.fl ∧
      t.runState = s.runState ∧ SameFaultFields s t ∧ t.out = s.out ∧ SameMemory s t

/-- JUMP_IF_EQUAL completes: taken, when E is 1 and the register is legal, it goes to the register's value; untaken, when
E is 0, it advances by 2 whatever its operand is (D9, log 12); nothing else changes either way. -/
def Obligations.JumpIfEqualCompletes : Prop :=
  ∀ (s : State) (op1 : Byte),
    (∀ h : op1.toNat < 8, flagE s.fl = true →
      ∃ t, exec (.jumpIfEqual op1) s = .next t ∧ t.pc.toNat = (s.reg ⟨op1.toNat, h⟩).toNat ∧ SameRegs s t ∧
        t.fl = s.fl ∧ t.runState = s.runState ∧ SameFaultFields s t ∧ t.out = s.out ∧ SameMemory s t) ∧
    (flagE s.fl = false →
      ∃ t, exec (.jumpIfEqual op1) s = .next t ∧ t.pc = s.pc + 2#9 ∧ SameRegs s t ∧
        t.fl = s.fl ∧ t.runState = s.runState ∧ SameFaultFields s t ∧ t.out = s.out ∧ SameMemory s t)

/-- JUMP_IF_NOT_EQUAL completes: taken, when E is 0 and the register is legal, it goes to the register's value; untaken,
when E is 1, it advances by 2 whatever its operand is (D9, log 12); nothing else changes either way. -/
def Obligations.JumpIfNotEqualCompletes : Prop :=
  ∀ (s : State) (op1 : Byte),
    (∀ h : op1.toNat < 8, flagE s.fl = false →
      ∃ t, exec (.jumpIfNotEqual op1) s = .next t ∧ t.pc.toNat = (s.reg ⟨op1.toNat, h⟩).toNat ∧ SameRegs s t ∧
        t.fl = s.fl ∧ t.runState = s.runState ∧ SameFaultFields s t ∧ t.out = s.out ∧ SameMemory s t) ∧
    (flagE s.fl = true →
      ∃ t, exec (.jumpIfNotEqual op1) s = .next t ∧ t.pc = s.pc + 2#9 ∧ SameRegs s t ∧
        t.fl = s.fl ∧ t.runState = s.runState ∧ SameFaultFields s t ∧ t.out = s.out ∧ SameMemory s t)

/-- A well-formed instruction, one whose register operands are all below 8, never faults in its handler, whatever the
state: the fetch is then the only thing in its step that can (30_encoding.md section 4; D9, log 12, log 19). -/
def Obligations.WellFormedInstructionsDoNotFault : Prop :=
  ∀ (i : Instr) (s t : State), i.wellFormed = true → s.runState = .running → exec i s = .next t →
    t.runState ≠ .faulted

/-- The two conditional jumps are complementary: in every state one of them does what JUMP does and the other only
advances by 2, for every operand (46_jumps.md). That the untaken one does so for an operand of 8 or more, without checking
it, is the choice D9 (log 12). -/
def Obligations.ConditionalJumpsAreComplementary : Prop :=
  ∀ (s : State) (op1 : Byte),
    (flagE s.fl = true → exec (.jumpIfEqual op1) s = exec (.jump op1) s ∧
      exec (.jumpIfNotEqual op1) s = .next (s.setPc (s.pc + 2#9))) ∧
    (flagE s.fl = false → exec (.jumpIfNotEqual op1) s = exec (.jump op1) s ∧
      exec (.jumpIfEqual op1) s = .next (s.setPc (s.pc + 2#9)))

/-! ### The instruction rules, from the opcode byte in memory to the state after the step -/

/-- HALT from memory: with 0x01 at `pc`, at any address, the step leaves `pc` 0 and HALTED and everything else as it was;
its only fault is that of the opcode fetch at 256 (42_halt.md). That `pc` can be 256 is the choice D6 (log 10), and what the
fault there leaves and records is D11 to D13 (log 13). -/
def Obligations.HaltRule : Prop :=
  ∀ s : State, s.runState = .running →
    (s.pc.toNat < 256 → Memory.byteAt s.mem s.pc.toNat = 0x01#8 →
      ∃ t, step s = .next t ∧ t.pc = 0#9 ∧ t.runState = .halted ∧ SameRegs s t ∧ t.fl = s.fl ∧
        SameFaultFields s t ∧ t.out = s.out ∧ SameMemory s t) ∧
    (s.pc = 256#9 → Raises (step s) s (.address 256#9))

/-- LOAD_IMMEDIATE from memory: with 0x82 at `pc`, the operand fetches fault at 254 and 255; an index of 8 or more faults;
else `x[op1]` is the immediate byte, the other seven registers and all else are unchanged and `pc` is `a + 3`; from 253
that is 256 and the next step faults (43_load_immediate.md). The choices it rests on: `pc` 256 (D6, log 10), the operand
places and the fetch order (D7, D8, log 11), the check at the access (D9, D10, log 12), what a fault leaves and records
(D11 to D13, log 13). -/
def Obligations.LoadImmediateRule : Prop :=
  ∀ s : State, s.runState = .running → s.pc.toNat < 256 → Memory.byteAt s.mem s.pc.toNat = 0x82#8 →
    (254 ≤ s.pc.toNat → Raises (step s) s (.address 256#9)) ∧
    (s.pc.toNat < 254 →
      ∀ op1 op2 : Byte, Memory.byteAt s.mem (s.pc.toNat + 1) = op1 → Memory.byteAt s.mem (s.pc.toNat + 2) = op2 →
        (8 ≤ op1.toNat → Raises (step s) s (.registerIndex op1)) ∧
        (∀ h : op1.toNat < 8, ∃ t, step s = .next t ∧ t.reg ⟨op1.toNat, h⟩ = op2 ∧
          SameRegsExcept ⟨op1.toNat, h⟩ s t ∧ t.pc.toNat = s.pc.toNat + 3 ∧ t.fl = s.fl ∧ t.runState = .running ∧
          SameFaultFields s t ∧ t.out = s.out ∧ SameMemory s t ∧
          (s.pc.toNat = 253 → Raises (step t) t (.address 256#9))))

/-- PRINT_REGISTER from memory: with 0x47 at `pc`, the operand fetch faults at 255; an index of 8 or more faults and emits
nothing; else exactly `x[op1]` is emitted, on the port of that step and at the end of `OUT` (44_print_register.md; D8 to
D14, log 7, log 11 to 13). -/
def Obligations.PrintRegisterFromMemory : Prop :=
  ∀ s : State, s.runState = .running → s.pc.toNat < 256 → Memory.byteAt s.mem s.pc.toNat = 0x47#8 →
    (s.pc.toNat = 255 → Raises (step s) s (.address 256#9)) ∧
    (s.pc.toNat < 255 → ∀ op1 : Byte, Memory.byteAt s.mem (s.pc.toNat + 1) = op1 →
      (8 ≤ op1.toNat → Raises (step s) s (.registerIndex op1)) ∧
      (∀ h : op1.toNat < 8, ∃ t, step s = .next t ∧ t.out = s.out ++ [s.reg ⟨op1.toNat, h⟩] ∧
        outPort s t = some (s.reg ⟨op1.toNat, h⟩) ∧ t.pc.toNat = s.pc.toNat + 2 ∧ SameRegs s t ∧ t.fl = s.fl ∧
        t.runState = .running ∧ SameFaultFields s t ∧ SameMemory s t ∧
        (s.pc.toNat = 254 → Raises (step t) t (.address 256#9))))

/-- COMPARE from memory: with 0xA7 at `pc`, the operand fetches fault at 254 and 255; an index of 8 or more faults, `op1`
first, and keeps the old `FL`; else exactly one of E, L, G is set, as the unsigned order says, and the other bits are 0
(45_compare.md; D3, D4, D8 to D13, log 8, log 9, log 11 to 13). -/
def Obligations.CompareFromMemory : Prop :=
  ∀ s : State, s.runState = .running → s.pc.toNat < 256 → Memory.byteAt s.mem s.pc.toNat = 0xA7#8 →
    (254 ≤ s.pc.toNat → Raises (step s) s (.address 256#9)) ∧
    (s.pc.toNat < 254 →
      ∀ op1 op2 : Byte, Memory.byteAt s.mem (s.pc.toNat + 1) = op1 → Memory.byteAt s.mem (s.pc.toNat + 2) = op2 →
        (8 ≤ op1.toNat → Raises (step s) s (.registerIndex op1)) ∧
        (op1.toNat < 8 → 8 ≤ op2.toNat → Raises (step s) s (.registerIndex op2)) ∧
        (∀ (h1 : op1.toNat < 8) (h2 : op2.toNat < 8), ∃ t, step s = .next t ∧
          (flagE t.fl = true ↔ (s.reg ⟨op1.toNat, h1⟩).toNat = (s.reg ⟨op2.toNat, h2⟩).toNat) ∧
          (flagL t.fl = true ↔ (s.reg ⟨op1.toNat, h1⟩).toNat < (s.reg ⟨op2.toNat, h2⟩).toNat) ∧
          (flagG t.fl = true ↔ (s.reg ⟨op2.toNat, h2⟩).toNat < (s.reg ⟨op1.toNat, h1⟩).toNat) ∧
          t.fl.toNat < 8 ∧ t.pc.toNat = s.pc.toNat + 3 ∧ SameRegs s t ∧ t.runState = .running ∧
          SameFaultFields s t ∧ t.out = s.out ∧ SameMemory s t))

/-- JUMP from memory: with 0x54 at `pc`, the operand fetch faults at 255; an index of 8 or more faults; else `pc` is the
register's value and nothing else changes, so that a jump to itself leaves the very same state (46_jumps.md; D8 to D13,
D25, log 10 to 13). -/
def Obligations.JumpFromMemory : Prop :=
  ∀ s : State, s.runState = .running → s.pc.toNat < 256 → Memory.byteAt s.mem s.pc.toNat = 0x54#8 →
    (s.pc.toNat = 255 → Raises (step s) s (.address 256#9)) ∧
    (s.pc.toNat < 255 → ∀ op1 : Byte, Memory.byteAt s.mem (s.pc.toNat + 1) = op1 →
      (8 ≤ op1.toNat → Raises (step s) s (.registerIndex op1)) ∧
      (∀ h : op1.toNat < 8, ∃ t, step s = .next t ∧ t.pc.toNat = (s.reg ⟨op1.toNat, h⟩).toNat ∧ SameRegs s t ∧
        t.fl = s.fl ∧ t.runState = .running ∧ SameFaultFields s t ∧ t.out = s.out ∧ SameMemory s t ∧
        ((s.reg ⟨op1.toNat, h⟩).toNat = s.pc.toNat → t = s)))

/-- The conditional jumps from memory: the operand is fetched whether or not the jump is taken, so 255 faults either way;
untaken, the register is not accessed and `pc` is `a + 2`; taken, an index of 8 or more faults and a legal one gives the
target. `E` alone decides: JUMP_IF_EQUAL (0x55) is taken on 1 and JUMP_IF_NOT_EQUAL (0x56) on 0 (46_jumps.md; D8, D9, D10
to D13, log 11 to 13). -/
def Obligations.ConditionalJumpsFromMemory : Prop :=
  ∀ (s : State) (takenOn : Bool), s.runState = .running → s.pc.toNat < 256 →
    Memory.byteAt s.mem s.pc.toNat = (if takenOn then 0x55#8 else 0x56#8) →
    (s.pc.toNat = 255 → Raises (step s) s (.address 256#9)) ∧
    (s.pc.toNat < 255 → ∀ op1 : Byte, Memory.byteAt s.mem (s.pc.toNat + 1) = op1 →
      (flagE s.fl ≠ takenOn → ∃ t, step s = .next t ∧ t.pc.toNat = s.pc.toNat + 2 ∧ SameRegs s t ∧ t.fl = s.fl ∧
        t.runState = .running ∧ SameFaultFields s t ∧ t.out = s.out ∧ SameMemory s t ∧
        (s.pc.toNat = 254 → Raises (step t) t (.address 256#9))) ∧
      (flagE s.fl = takenOn → 8 ≤ op1.toNat → Raises (step s) s (.registerIndex op1)) ∧
      (flagE s.fl = takenOn → ∀ h : op1.toNat < 8, ∃ t, step s = .next t ∧
        t.pc.toNat = (s.reg ⟨op1.toNat, h⟩).toNat ∧ SameRegs s t ∧ t.fl = s.fl ∧ t.runState = .running ∧
        SameFaultFields s t ∧ t.out = s.out ∧ SameMemory s t))

/-! ### Rules about the whole machine -/

/-- A register keeps its value but for a register write and the ALU's write-back; in a step that is LOAD_IMMEDIATE's write
to the register its operand names, and it is seen by the next read (10_state.md section 1). Where `op1` and `op2` stand is
the choice D7 (log 11), and the tags of the ALU clause are D16 (log 8). -/
def Obligations.RegistersKeepTheirValues : Prop :=
  (∀ (s t : State) (k : Fin 8), step s = .next t → t.reg k ≠ s.reg k →
    s.pc.toNat < 254 ∧ Memory.byteAt s.mem s.pc.toNat = 0x82#8 ∧
    (Memory.byteAt s.mem (s.pc.toNat + 1)).toNat = k.val ∧ t.reg k = Memory.byteAt s.mem (s.pc.toNat + 2)) ∧
  (∀ (s t : State) (tag : BitVec 4) (regA regB : Byte) (k : Fin 8), compute tag regA regB s = .ok t →
    t.reg k ≠ s.reg k → k.val = regA.toNat ∧ tag ∈ [0x0#4, 0x1#4, 0x2#4]) ∧
  (∀ (s t : State) (i v j : Byte), writeReg s i v = .ok t →
    readReg t j = if j = i then .ok v else readReg s j)

/-- COMPARE is the only writer of `FL` in a run and replaces all of it; ADD, SUB and MUL leave it; the readers are the two
conditional jumps, and they read E only, so a state with another `FL` does the same otherwise (10_state.md section 3). The
places of E, L and G and the zeros above them are the choices D4 and D27 (log 9), the tags of ADD, SUB and MUL are D16
(log 8), the reset value of `FL` is D5 (log 1), and FAULTED is D11 (log 13). -/
def Obligations.FlagWritersAndReaders : Prop :=
  (∀ s t : State, step s = .next t → t.fl ≠ s.fl →
    s.pc.toNat < 254 ∧ Memory.byteAt s.mem s.pc.toNat = 0xA7#8) ∧
  (∀ s t : State, step s = .next t → t.runState ≠ .faulted → Memory.byteAt s.mem s.pc.toNat = 0xA7#8 →
    t.fl.toNat < 8 ∧ ((flagE t.fl, flagL t.fl, flagG t.fl) = (true, false, false) ∨
      (flagE t.fl, flagL t.fl, flagG t.fl) = (false, true, false) ∨
      (flagE t.fl, flagL t.fl, flagG t.fl) = (false, false, true))) ∧
  (∀ (s t : State) (tag : BitVec 4) (regA regB : Byte), tag ∈ [0x0#4, 0x1#4, 0x2#4] →
    compute tag regA regB s = .ok t → t.fl = s.fl) ∧
  (∀ (s t : State) (f : Byte), step s = .next t →
    (Memory.byteAt s.mem s.pc.toNat ∈ [0x55#8, 0x56#8] → flagE f = flagE s.fl) →
    ∃ g, step { s with fl := f } = .next { t with fl := g } ∧ ((t.fl = s.fl ∧ g = f) ∨ g = t.fl)) ∧
  (∀ s : State, s.assertReset.fl = Config.flReset)

/-- A step appends to `OUT` exactly the register that a completing PRINT_REGISTER names, and nothing otherwise; no
instruction reads `OUT`; along a run it only grows; reset empties it (10_state.md section 4). That the operand byte stands
at `pc + 1` is the choice D7 (log 11). -/
def Obligations.OutputIsOnlyAppendedTo : Prop :=
  (∀ s t : State, step s = .next t → t.out ≠ s.out →
    s.pc.toNat < 255 ∧ Memory.byteAt s.mem s.pc.toNat = 0x47#8 ∧
    ∃ k : Fin 8, (Memory.byteAt s.mem (s.pc.toNat + 1)).toNat = k.val ∧ t.out = s.out ++ [s.reg k]) ∧
  (∀ (s t : State) (o : List Byte), step s = .next t →
    ∃ d, t.out = s.out ++ d ∧ step { s with out := o } = .next { t with out := o ++ d }) ∧
  (∀ (s : State) (fuel : Nat), s.out <+: (run s fuel).out) ∧
  (∀ s : State, s.assertReset.out = [])

/-- Each handler ends by writing `pc` once, with `a` plus its own length, a register's value, or 0 for HALT; the additions
do not exceed 256; a faulting step never moves `pc` (41_execution_engine.md section 2). That the operand byte stands at
`pc + 1` is the choice D7 (log 11), the 9 bits and the 256 are D6 and D25 (log 10), and FAULTED is D11 (log 13). -/
def Obligations.HandlersOwnThePc : Prop :=
  ∀ s t : State, step s = .next t →
    (t.runState = .faulted → t.pc = s.pc) ∧
    (t.runState ≠ .faulted →
      let a := s.pc.toNat
      let opc := Memory.byteAt s.mem a
      let target := fun k : Fin 8 => (Memory.byteAt s.mem (a + 1)).toNat = k.val ∧ t.pc.toNat = (s.reg k).toNat
      (opc = 0x01#8 → t.pc = 0#9) ∧
      (opc ∈ [0x82#8, 0xA7#8] → t.pc.toNat = a + 3 ∧ a + 3 ≤ 256) ∧
      (opc = 0x47#8 → t.pc.toNat = a + 2 ∧ a + 2 ≤ 256) ∧
      (opc = 0x54#8 → ∃ k, target k) ∧
      (opc = 0x55#8 → (flagE s.fl = true → ∃ k, target k) ∧
        (flagE s.fl = false → t.pc.toNat = a + 2 ∧ a + 2 ≤ 256)) ∧
      (opc = 0x56#8 → (flagE s.fl = false → ∃ k, target k) ∧
        (flagE s.fl = true → t.pc.toNat = a + 2 ∧ a + 2 ≤ 256)))

/-- R165: no hazards. A value loaded is what the very next instruction reads from that register, be it PRINT_REGISTER,
COMPARE (as either operand, or both), JUMP or a taken conditional jump; the flags of a COMPARE decide the very next
conditional jump; and the `pc` that a JUMP or a taken conditional jump writes is the very next fetch address. -/
def Obligations.NoHazards : Prop :=
  (∀ (s : State) (r v : Byte), r.toNat < 8 → ∃ t, exec (.loadImmediate r v) s = .next t ∧
    (∃ u, exec (.printRegister r) t = .next u ∧ u.out = s.out ++ [v]) ∧
    (∀ (b : Byte) (hb : b.toNat < 8),
      let other := if b = r then v else s.reg ⟨b.toNat, hb⟩
      (∃ u, exec (.compare r b) t = .next u ∧ u.fl = compareFlags v other ∧ (flagE u.fl = true ↔ v = other)) ∧
      (∃ u, exec (.compare b r) t = .next u ∧ u.fl = compareFlags other v ∧ (flagE u.fl = true ↔ other = v))) ∧
    (∃ u, exec (.jump r) t = .next u ∧ u.pc.toNat = v.toNat) ∧
    (flagE s.fl = true → ∃ u, exec (.jumpIfEqual r) t = .next u ∧ u.pc.toNat = v.toNat) ∧
    (flagE s.fl = false → ∃ u, exec (.jumpIfNotEqual r) t = .next u ∧ u.pc.toNat = v.toNat)) ∧
  (∀ (s : State) (a b r : Byte) (ha : a.toNat < 8) (hb : b.toNat < 8) (hr : r.toNat < 8),
    ∃ t u w, exec (.compare a b) s = .next t ∧ exec (.jumpIfEqual r) t = .next u ∧
      exec (.jumpIfNotEqual r) t = .next w ∧
      (s.reg ⟨a.toNat, ha⟩ = s.reg ⟨b.toNat, hb⟩ →
        u.pc.toNat = (s.reg ⟨r.toNat, hr⟩).toNat ∧ w.pc = t.pc + 2#9) ∧
      (s.reg ⟨a.toNat, ha⟩ ≠ s.reg ⟨b.toNat, hb⟩ →
        u.pc = t.pc + 2#9 ∧ w.pc.toNat = (s.reg ⟨r.toNat, hr⟩).toNat)) ∧
  (∀ (s : State) (i : Instr) (r : Byte) (hr : r.toNat < 8), s.runState = .running →
    (i = .jump r ∨ (i = .jumpIfEqual r ∧ flagE s.fl = true) ∨ (i = .jumpIfNotEqual r ∧ flagE s.fl = false)) →
    ∃ t f, exec i s = .next t ∧ (fetchAddrs t).head? = some f ∧ f.toNat = (s.reg ⟨r.toNat, hr⟩).toNat)

/-- A run has ended exactly in HALTED or FAULTED, where no step exists. A step into HALTED executed HALT: `pc` 0, cause 0,
registers, flags and output as the instruction before left them. A step into FAULTED has a cause from 1 to 4 and leaves the
rest as it was (70_reset_and_hazards.md section 5). FAULTED and the numbers of the causes are the choices D11 and D12
(log 13). -/
def Obligations.EndsOfARun : Prop :=
  (∀ s : State, Ended s ↔ ¬∃ t, step s = .next t) ∧
  (∀ s t : State, Inv s → step s = .next t → t.runState = .halted →
    s.pc.toNat < 256 ∧ Memory.byteAt s.mem s.pc.toNat = 0x01#8 ∧ t.pc = 0#9 ∧ t.faultCause.code = 0#3 ∧
    SameRegs s t ∧ t.fl = s.fl ∧ t.out = s.out) ∧
  (∀ s t : State, step s = .next t → t.runState = .faulted →
    1 ≤ t.faultCause.code.toNat ∧ t.faultCause.code.toNat ≤ 4 ∧ SameRegs s t ∧ t.pc = s.pc ∧ t.fl = s.fl ∧
    t.out = s.out ∧ SameMemory s t)

/-- A step depends on memory only through the bytes whose addresses it drives on the port: opcode, then the operands of a
known opcode, never a byte past them (41_execution_engine.md sections 2 and 3; D8, log 11). -/
def Obligations.StepDependsOnlyOnFetchedBytes : Prop :=
  ∀ (s t : State) (m : Memory),
    (∀ a ∈ fetchAddrs s, Memory.byteAt m a.toNat = Memory.byteAt s.mem a.toNat) →
    step s = .next t → step { s with mem := m } = .next { t with mem := m }

/-- The fetch addresses of a step ascend from `pc` by 1, stay below 256, and are as many as the instruction's length when
its bytes are all in memory (10_state.md section 6; 41_execution_engine.md section 2; D7, D8, log 7, log 11). -/
def Obligations.FetchesAscendFromThePc : Prop :=
  ∀ s : State, s.runState = .running →
    (∀ (k : Nat) (a : Addr), (fetchAddrs s)[k]? = some a → a.toNat = s.pc.toNat + k ∧ a.toNat < 256) ∧
    (∀ (i : Instr) (rest : List Byte), decode (codeBytes s) = .ok (i, rest) →
      (fetchAddrs s).length = (encode i).length) ∧
    (s.pc.toNat < 256 → lengthFromOpcode (Memory.byteAt s.mem s.pc.toNat) = none → memAddrPort s = [s.pc.setWidth 8])

/-- Memory is constant along a run: no instruction writes it (20_memory.md sections 1 and 7). -/
def Obligations.MemoryIsConstantAlongARun : Prop := ∀ (s : State) (fuel : Nat), (run s fuel).mem = s.mem

/-- An ended run stays as it is, a run of `m + n` steps is a run of `m` and then of `n`, a ceiling only cuts the fuel, and a
run that reaches HALTED never faults (41_execution_engine.md section 3; log 17). -/
def Obligations.RunsComposeAndEndOnce : Prop :=
  (∀ (s : State) (n : Nat), Ended s → run s n = s) ∧
  (∀ (s : State) (m n : Nat), run s (m + n) = run (run s m) n) ∧
  (∀ (s : State) (c n : Nat), runUnderCeiling none s n = run s n ∧ runUnderCeiling (some c) s n = run s (min c n)) ∧
  (∀ s : State, ReachesHalt s → NeverFaults s)

/-- A jump through a register that holds the jump's own address is an infinite loop: under every fuel the state is RUNNING
and the same (46_jumps.md; 70_reset_and_hazards.md section 4). -/
def Obligations.SelfJumpRunsForEver : Prop :=
  ∀ (s : State) (k : Fin 8), s.runState = .running → s.pc.toNat < 255 → Memory.byteAt s.mem s.pc.toNat = 0x54#8 →
    (Memory.byteAt s.mem (s.pc.toNat + 1)).toNat = k.val → (s.reg k).toNat = s.pc.toNat →
    ∀ fuel, run s fuel = s ∧ (run s fuel).runState = .running

/-- The output port is valid in exactly the steps that are a completing PRINT_REGISTER, with the register's value
(44_print_register.md; D14, log 7). -/
def Obligations.OutputPortIsValidOnlyForAPrint : Prop :=
  ∀ s t : State, step s = .next t → ∀ v : Byte, outPort s t = some v ↔
    (t.runState ≠ .faulted ∧ Memory.byteAt s.mem s.pc.toNat = 0x47#8 ∧
      ∃ k : Fin 8, (Memory.byteAt s.mem (s.pc.toNat + 1)).toNat = k.val ∧ s.reg k = v)

/-! ### Memory, load and reset -/

/-- R32: a read at 256 or more raises AddressError with that address, with no wraparound; below 256 it gives the byte. -/
def Obligations.MemReadIsBoundsChecked : Prop :=
  ∀ (m : Memory) (a : Addr),
    (256 ≤ a.toNat → memRead m a = .error (.address a)) ∧
    (a.toNat < 256 → memRead m a = .ok (Memory.byteAt m a.toNat))

/-- R33: a write at 256 or more raises AddressError; below 256 it stores the byte there, every other byte and all other
state are unchanged, and a read gives it back; no instruction writes memory. -/
def Obligations.MemWriteStoresOneByte : Prop :=
  (∀ (s : State) (a : Addr) (v : Byte),
    (256 ≤ a.toNat → memWrite s a v = .error (.address a)) ∧
    (a.toNat < 256 → Memory.wf s.mem = true → ∃ t, memWrite s a v = .ok t ∧ memRead t.mem a = .ok v ∧
      (∀ c : Nat, c ≠ a.toNat → Memory.byteAt t.mem c = Memory.byteAt s.mem c) ∧ t = { s with mem := t.mem })) ∧
  (∀ s t : State, step s = .next t → t.mem = s.mem)

/-- After one byte is written anywhere in memory, at `pc`, at an operand's address or elsewhere, the very next step fetches
that byte where it stands and the old bytes around it, with no fence: it runs the instruction they make, for each of the
seven opcodes, and faults where they make none (20_memory.md section 8; D23, log 15). The operand places and their fetch
are D7 and D8 (log 11), what a fault leaves and records is D11 to D13 (log 13). -/
def Obligations.AWriteIsSeenByTheNextFetch : Prop :=
  ∀ (s t : State) (a : Addr) (v : Byte), s.runState = .running → Memory.wf s.mem = true → s.pc.toNat < 256 →
    memWrite s a v = .ok t →
    let p := s.pc.toNat
    let byte := fun k : Nat => if a.toNat = p + k then v else Memory.byteAt s.mem (p + k)
    let runs1 := fun mk : Byte → Instr =>
      (p < 255 → step t = exec (mk (byte 1)) t) ∧ (p = 255 → Raises (step t) t (.address 256#9))
    let runs2 := fun mk : Byte → Byte → Instr =>
      (p < 254 → step t = exec (mk (byte 1) (byte 2)) t) ∧ (254 ≤ p → Raises (step t) t (.address 256#9))
    (byte 0 = 0x01#8 → step t = exec .halt t) ∧
    (byte 0 = 0x82#8 → runs2 .loadImmediate) ∧
    (byte 0 = 0x47#8 → runs1 .printRegister) ∧
    (byte 0 = 0xA7#8 → runs2 .compare) ∧
    (byte 0 = 0x54#8 → runs1 .jump) ∧
    (byte 0 = 0x55#8 → runs1 .jumpIfEqual) ∧
    (byte 0 = 0x56#8 → runs1 .jumpIfNotEqual) ∧
    (byte 0 ∉ [0x01#8, 0x82#8, 0x47#8, 0xA7#8, 0x54#8, 0x55#8, 0x56#8] →
      Raises (step t) t (.unknownOpcode (byte 0)))

/-- Load: an image of at most 256 bytes lies at addresses 0 and up and everything else is unchanged; a longer one is a
ProgramLoadError. A bulk load puts its bytes at its start address and up, wherever that is, and leaves everything else,
when they fit, and is a ProgramLoadError when they would overflow the array (20_memory.md section 2; D15, log 15). -/
def Obligations.LoadPlacesTheImage : Prop :=
  (∀ (s : State) (image : List Byte),
    (256 < image.length → load s image = .error .programLoadError) ∧
    (image.length ≤ 256 → Memory.wf s.mem = true → ∃ t, load s image = .ok t ∧ t = { s with mem := t.mem } ∧
      (∀ (k : Nat) (b : Byte), image[k]? = some b → Memory.byteAt t.mem k = b) ∧
      (∀ k : Nat, image.length ≤ k → Memory.byteAt t.mem k = Memory.byteAt s.mem k))) ∧
  (∀ (s : State) (start : Nat) (bytes : List Byte),
    (256 < start + bytes.length → bulkLoad s start bytes = .error .programLoadError) ∧
    (start + bytes.length ≤ 256 → Memory.wf s.mem = true → ∃ t, bulkLoad s start bytes = .ok t ∧
      t = { s with mem := t.mem } ∧ Memory.wf t.mem = true ∧
      (∀ (k : Nat) (b : Byte), bytes[k]? = some b → Memory.byteAt t.mem (start + k) = b) ∧
      (∀ c : Nat, c < start ∨ start + bytes.length ≤ c → Memory.byteAt t.mem c = Memory.byteAt s.mem c)))

/-- Reset, from any state: `pc` 0, RUNNING, every byte of memory 0, no output, the fault fields clear (D11), every
register and `FL` 0 (the spec's decision D5, the model's log 1). -/
def Obligations.ResetState : Prop :=
  ∀ s : State, s.assertReset.pc = 0#9 ∧ s.assertReset.runState = .running ∧
    (∀ a : Nat, Memory.byteAt s.assertReset.mem a = 0x00#8) ∧ s.assertReset.out = [] ∧
    FaultFieldsClear s.assertReset ∧ (∀ k : Fin 8, s.assertReset.reg k = 0x00#8) ∧ s.assertReset.fl = 0x00#8

/-- The launch state of an image (70_reset_and_hazards.md section 1): the image from address 0, 0x00 above it, and the
reset value of everything else, for the registers and `FL` the spec's decision D5 (log 1). -/
def Obligations.LaunchState : Prop :=
  ∀ image : List Byte, image.length ≤ 256 → ∃ s, launch image = .ok s ∧ s.pc = 0#9 ∧ s.runState = .running ∧
    (∀ k : Nat, Memory.byteAt s.mem k = image.getD k 0x00#8) ∧ FaultFieldsClear s ∧ s.out = [] ∧
    (∀ k : Fin 8, s.reg k = 0x00#8) ∧ s.fl = 0x00#8 ∧ Memory.wf s.mem = true

/-! ### The ALU block -/

/-- ADD, SUB and MUL on legal registers complete: the result modulo 256 is in `x[regA]`, and no other register, no flag and
nothing else changes (40_alu.md section 2; wrapping is D2, the tags are D16, log 8). -/
def Obligations.AluArithmeticWraps : Prop :=
  ∀ (s : State) (regA regB : Byte) (ha : regA.toNat < 8) (hb : regB.toNat < 8),
    let a := (s.reg ⟨regA.toNat, ha⟩).toNat
    let b := (s.reg ⟨regB.toNat, hb⟩).toNat
    ∀ (tag : BitVec 4) (r : Nat),
      ((tag = 0x0#4 ∧ r = (a + b) % 256) ∨ (tag = 0x1#4 ∧ r = (a + 256 - b) % 256) ∨
        (tag = 0x2#4 ∧ r = (a * b) % 256)) →
      ∃ t, invokeAlu tag regA regB s = .next t ∧ (t.reg ⟨regA.toNat, ha⟩).toNat = r ∧
        SameRegsExcept ⟨regA.toNat, ha⟩ s t ∧ t.fl = s.fl ∧ t.pc = s.pc ∧ t.runState = s.runState ∧
        SameFaultFields s t ∧ t.out = s.out ∧ SameMemory s t

/-- CMP on legal registers completes and replaces `FL` alone; of one register with itself it gives E
(40_alu.md sections 3 and 5; D3, D4, D26, log 8, log 9). -/
def Obligations.AluCompareReplacesFlags : Prop :=
  ∀ (s : State) (regA regB : Byte) (ha : regA.toNat < 8) (hb : regB.toNat < 8),
    ∃ t, invokeAlu 0x7#4 regA regB s = .next t ∧
      (flagE t.fl = true ↔ s.reg ⟨regA.toNat, ha⟩ = s.reg ⟨regB.toNat, hb⟩) ∧
      (flagL t.fl = true ↔ (s.reg ⟨regA.toNat, ha⟩).toNat < (s.reg ⟨regB.toNat, hb⟩).toNat) ∧
      (flagG t.fl = true ↔ (s.reg ⟨regB.toNat, hb⟩).toNat < (s.reg ⟨regA.toNat, ha⟩).toNat) ∧
      t.fl.toNat < 8 ∧ (regA = regB → t.fl = 0x01#8) ∧ t = { s with fl := t.fl }

/-- One register as both operands: both reads come before the write, so ADD doubles it, SUB clears it and MUL squares it,
modulo 256 (40_alu.md section 5; D26, log 8). -/
def Obligations.AluSameRegisterReadsFirst : Prop :=
  ∀ (s : State) (r : Byte) (h : r.toNat < 8),
    (∃ t, invokeAlu 0x0#4 r r s = .next t ∧
      (t.reg ⟨r.toNat, h⟩).toNat = 2 * (s.reg ⟨r.toNat, h⟩).toNat % 256) ∧
    (∃ t, invokeAlu 0x1#4 r r s = .next t ∧ (t.reg ⟨r.toNat, h⟩).toNat = 0) ∧
    (∃ t, invokeAlu 0x2#4 r r s = .next t ∧
      (t.reg ⟨r.toNat, h⟩).toNat = (s.reg ⟨r.toNat, h⟩).toNat * (s.reg ⟨r.toNat, h⟩).toNat % 256)

/-- The block's faults in their order: an unsupported tag before any register, then `regA`, then `regB`; nothing is
written (40_alu.md section 4; D10, D16, log 8, log 12). -/
def Obligations.AluFaultsInOrder : Prop :=
  ∀ (s : State) (tag : BitVec 4) (regA regB : Byte),
    (tag ∉ [0x0#4, 0x1#4, 0x2#4, 0x7#4] → Raises (invokeAlu tag regA regB s) s (.unsupportedOperation tag)) ∧
    (tag ∈ [0x0#4, 0x1#4, 0x2#4, 0x7#4] → 8 ≤ regA.toNat →
      Raises (invokeAlu tag regA regB s) s (.registerIndex regA)) ∧
    (tag ∈ [0x0#4, 0x1#4, 0x2#4, 0x7#4] → regA.toNat < 8 → 8 ≤ regB.toNat →
      Raises (invokeAlu tag regA regB s) s (.registerIndex regB))

/-! ### The host's side -/

/-- The exit status and the message of each end: 0 for HALTED; 1 for an unknown opcode, with a message naming the byte that
FAULT_INFO holds; an unknown number that is not 0 for the other faults; an unknown number that is not 0, with a message, for
a failed load. A RUNNING state has none (70_reset_and_hazards.md section 5, 60_exceptions.md section 4; D11 to D13, D20,
log 13, log 16; the status and the message of a failed load, log 25). -/
def Obligations.ExitStatusOfEachEnd : Prop :=
  (∀ s : State,
    (s.runState = .running → exitStatus s = none ∧ hostReport (.ok s) = none) ∧
    (s.runState = .halted → exitStatus s = some 0 ∧ hostReport (.ok s) = some ⟨0, none⟩) ∧
    (s.runState = .faulted → s.faultCause = .unknownOpcode → exitStatus s = some 1 ∧
      hostReport (.ok s) = some ⟨1, some (.unrecognizedOpcode (s.faultInfo.setWidth 8))⟩) ∧
    (s.runState = .faulted → s.faultCause ≠ .unknownOpcode →
      ∃ n, exitStatus s = some n ∧ n ≠ 0 ∧ hostReport (.ok s) = some ⟨n, none⟩)) ∧
  (∀ e : LoadError, ∃ n, hostReport (.error e) = some ⟨n, some .loadFailed⟩ ∧ n ≠ 0)

/-- The end of the process for every image: one that does not fit ends with a status that is not 0 and a message, and the
core never runs; one that fits has no report while its run is RUNNING, 0 once it is HALTED, 1 with a message naming the very
byte of the image (or 0x00 above it) at `pc` once it has met an unknown opcode, and a status that is not 0 after any other
fault; and a report, once there is one, is the same after every further step (70_reset_and_hazards.md sections 1 and 5,
60_exceptions.md section 4; D11 to D13, D15, D20, log 13, log 15, log 16, log 25). -/
def Obligations.ProcessEndOfEveryImage : Prop :=
  ∀ (image : List Byte) (fuel : Nat),
    (256 < image.length → ∃ n, processEnd image fuel = some ⟨n, some .loadFailed⟩ ∧ n ≠ 0) ∧
    (image.length ≤ 256 → ∃ s, launch image = .ok s ∧
      let t := run s fuel
      (t.runState = .running → processEnd image fuel = none) ∧
      (t.runState = .halted → processEnd image fuel = some ⟨0, none⟩) ∧
      (t.runState = .faulted → t.faultCause = .unknownOpcode →
        let opc := image.getD t.pc.toNat 0x00#8
        processEnd image fuel = some ⟨1, some (.unrecognizedOpcode opc)⟩ ∧
          opc ∉ [0x01#8, 0x82#8, 0x47#8, 0xA7#8, 0x54#8, 0x55#8, 0x56#8]) ∧
      (t.runState = .faulted → t.faultCause ≠ .unknownOpcode →
        ∃ n, processEnd image fuel = some ⟨n, none⟩ ∧ n ≠ 0)) ∧
    (∀ (r : HostReport) (more : Nat), processEnd image fuel = some r → processEnd image (fuel + more) = some r)

/-- A printed value is its decimal digits, most significant first, with no leading zero, and one line feed after it
(44_print_register.md section on the host; D14, log 20). -/
def Obligations.PrintedTextIsDecimal : Prop :=
  (∀ v : Byte, (decimalText v).foldl (fun n c => 10 * n + (c.toNat - 48)) 0 = v.toNat ∧
    (∀ c ∈ decimalText v, 48 ≤ c.toNat ∧ c.toNat ≤ 57) ∧
    (10 ≤ v.toNat → (decimalText v).head? ≠ some '0') ∧ (v.toNat < 10 → (decimalText v).length = 1)) ∧
  (∀ (s : State) (v : Byte), hostOutput { s with out := s.out ++ [v] } = hostOutput s ++ decimalText v ++ ['\n'])

/-- The status group: `state` is STATE in numbers, 0, 1, 2 and never 3; `fault_cause` is FAULT_CAUSE, 0 to 5 and never 6 or
7; `fault_info` is FAULT_INFO and `fault_pc` is FAULT_PC. After each `raise` they carry that fault's information and the
`pc` of the faulting step; in a state that meets the invariant the cause is at most 3, and all three fault signals are 0
unless FAULTED (10_state.md sections 4 and 6; D11 to D13, D21, log 6, log 13). -/
def Obligations.StatusPortInNumbers : Prop :=
  ∀ s : State,
    (s.runState = .running → (statusPort s).state = 0#2) ∧ (s.runState = .halted → (statusPort s).state = 1#2) ∧
    (s.runState = .faulted → (statusPort s).state = 2#2) ∧ (statusPort s).state ≠ 3#2 ∧
    (statusPort s).faultCause.toNat < 6 ∧ (s.faultCause = .none → (statusPort s).faultCause = 0#3) ∧
    (s.faultCause = .unknownOpcode → (statusPort s).faultCause = 1#3) ∧
    (s.faultCause = .address → (statusPort s).faultCause = 2#3) ∧
    (s.faultCause = .registerIndex → (statusPort s).faultCause = 3#3) ∧
    (s.faultCause = .unsupportedOperation → (statusPort s).faultCause = 4#3) ∧
    (s.faultCause = .programLoad → (statusPort s).faultCause = 5#3) ∧
    (statusPort s).faultInfo = s.faultInfo ∧ (statusPort s).faultPc = s.faultPc ∧
    (∀ e : CoreError, (statusPort (s.raise e)).state = 2#2 ∧ (statusPort (s.raise e)).faultPc = s.pc ∧
      (∀ opc, e = .unknownOpcode opc →
        (statusPort (s.raise e)).faultCause = 1#3 ∧ (statusPort (s.raise e)).faultInfo.toNat = opc.toNat) ∧
      (∀ a, e = .address a →
        (statusPort (s.raise e)).faultCause = 2#3 ∧ (statusPort (s.raise e)).faultInfo = a) ∧
      (∀ i, e = .registerIndex i →
        (statusPort (s.raise e)).faultCause = 3#3 ∧ (statusPort (s.raise e)).faultInfo.toNat = i.toNat) ∧
      (∀ tag, e = .unsupportedOperation tag →
        (statusPort (s.raise e)).faultCause = 4#3 ∧ (statusPort (s.raise e)).faultInfo.toNat = tag.toNat)) ∧
    (Inv s → s.runState ≠ .faulted →
      (statusPort s).faultCause = 0#3 ∧ (statusPort s).faultInfo = 0#9 ∧ (statusPort s).faultPc = 0#9) ∧
    (Inv s → (statusPort s).faultCause.toNat ≤ 3)
end

