-- ==== Sys2Proof/Laws/State.lean ====
section
/-! SUPPORT. One lemma per field per state update, each true by `rfl`. -/

namespace Sys2Proof.Machine.State

variable (s : State)

@[simp] theorem setRegs_regs (r) : (s.setRegs r).regs = r := rfl
@[simp] theorem setRegs_pc (r) : (s.setRegs r).pc = s.pc := rfl
@[simp] theorem setRegs_fl (r) : (s.setRegs r).fl = s.fl := rfl
@[simp] theorem setRegs_runState (r) : (s.setRegs r).runState = s.runState := rfl
@[simp] theorem setRegs_faultCause (r) : (s.setRegs r).faultCause = s.faultCause := rfl
@[simp] theorem setRegs_faultInfo (r) : (s.setRegs r).faultInfo = s.faultInfo := rfl
@[simp] theorem setRegs_faultPc (r) : (s.setRegs r).faultPc = s.faultPc := rfl
@[simp] theorem setRegs_out (r) : (s.setRegs r).out = s.out := rfl
@[simp] theorem setRegs_mem (r) : (s.setRegs r).mem = s.mem := rfl

@[simp] theorem setPc_regs (a) : (s.setPc a).regs = s.regs := rfl
@[simp] theorem setPc_pc (a) : (s.setPc a).pc = a := rfl
@[simp] theorem setPc_fl (a) : (s.setPc a).fl = s.fl := rfl
@[simp] theorem setPc_runState (a) : (s.setPc a).runState = s.runState := rfl
@[simp] theorem setPc_faultCause (a) : (s.setPc a).faultCause = s.faultCause := rfl
@[simp] theorem setPc_faultInfo (a) : (s.setPc a).faultInfo = s.faultInfo := rfl
@[simp] theorem setPc_faultPc (a) : (s.setPc a).faultPc = s.faultPc := rfl
@[simp] theorem setPc_out (a) : (s.setPc a).out = s.out := rfl
@[simp] theorem setPc_mem (a) : (s.setPc a).mem = s.mem := rfl

@[simp] theorem setFl_regs (f) : (s.setFl f).regs = s.regs := rfl
@[simp] theorem setFl_pc (f) : (s.setFl f).pc = s.pc := rfl
@[simp] theorem setFl_fl (f) : (s.setFl f).fl = f := rfl
@[simp] theorem setFl_runState (f) : (s.setFl f).runState = s.runState := rfl
@[simp] theorem setFl_faultCause (f) : (s.setFl f).faultCause = s.faultCause := rfl
@[simp] theorem setFl_faultInfo (f) : (s.setFl f).faultInfo = s.faultInfo := rfl
@[simp] theorem setFl_faultPc (f) : (s.setFl f).faultPc = s.faultPc := rfl
@[simp] theorem setFl_out (f) : (s.setFl f).out = s.out := rfl
@[simp] theorem setFl_mem (f) : (s.setFl f).mem = s.mem := rfl

@[simp] theorem setRunState_regs (r) : (s.setRunState r).regs = s.regs := rfl
@[simp] theorem setRunState_pc (r) : (s.setRunState r).pc = s.pc := rfl
@[simp] theorem setRunState_fl (r) : (s.setRunState r).fl = s.fl := rfl
@[simp] theorem setRunState_runState (r) : (s.setRunState r).runState = r := rfl
@[simp] theorem setRunState_faultCause (r) : (s.setRunState r).faultCause = s.faultCause := rfl
@[simp] theorem setRunState_faultInfo (r) : (s.setRunState r).faultInfo = s.faultInfo := rfl
@[simp] theorem setRunState_faultPc (r) : (s.setRunState r).faultPc = s.faultPc := rfl
@[simp] theorem setRunState_out (r) : (s.setRunState r).out = s.out := rfl
@[simp] theorem setRunState_mem (r) : (s.setRunState r).mem = s.mem := rfl

@[simp] theorem setOut_regs (o) : (s.setOut o).regs = s.regs := rfl
@[simp] theorem setOut_pc (o) : (s.setOut o).pc = s.pc := rfl
@[simp] theorem setOut_fl (o) : (s.setOut o).fl = s.fl := rfl
@[simp] theorem setOut_runState (o) : (s.setOut o).runState = s.runState := rfl
@[simp] theorem setOut_faultCause (o) : (s.setOut o).faultCause = s.faultCause := rfl
@[simp] theorem setOut_faultInfo (o) : (s.setOut o).faultInfo = s.faultInfo := rfl
@[simp] theorem setOut_faultPc (o) : (s.setOut o).faultPc = s.faultPc := rfl
@[simp] theorem setOut_out (o) : (s.setOut o).out = o := rfl
@[simp] theorem setOut_mem (o) : (s.setOut o).mem = s.mem := rfl

@[simp] theorem setMem_regs (m) : (s.setMem m).regs = s.regs := rfl
@[simp] theorem setMem_pc (m) : (s.setMem m).pc = s.pc := rfl
@[simp] theorem setMem_fl (m) : (s.setMem m).fl = s.fl := rfl
@[simp] theorem setMem_runState (m) : (s.setMem m).runState = s.runState := rfl
@[simp] theorem setMem_faultCause (m) : (s.setMem m).faultCause = s.faultCause := rfl
@[simp] theorem setMem_faultInfo (m) : (s.setMem m).faultInfo = s.faultInfo := rfl
@[simp] theorem setMem_faultPc (m) : (s.setMem m).faultPc = s.faultPc := rfl
@[simp] theorem setMem_out (m) : (s.setMem m).out = s.out := rfl
@[simp] theorem setMem_mem (m) : (s.setMem m).mem = m := rfl

@[simp] theorem raise_regs (e) : (s.raise e).regs = s.regs := rfl
@[simp] theorem raise_pc (e) : (s.raise e).pc = s.pc := rfl
@[simp] theorem raise_fl (e) : (s.raise e).fl = s.fl := rfl
@[simp] theorem raise_runState (e) : (s.raise e).runState = .faulted := rfl
@[simp] theorem raise_faultCause (e) : (s.raise e).faultCause = e.cause := rfl
@[simp] theorem raise_faultInfo (e) : (s.raise e).faultInfo = e.info := rfl
@[simp] theorem raise_faultPc (e) : (s.raise e).faultPc = s.pc := rfl
@[simp] theorem raise_out (e) : (s.raise e).out = s.out := rfl
@[simp] theorem raise_mem (e) : (s.raise e).mem = s.mem := rfl

@[simp] theorem reg_setRegs (r k) : (s.setRegs r).reg k = r[k] := rfl
@[simp] theorem reg_setPc (a k) : (s.setPc a).reg k = s.reg k := rfl
@[simp] theorem reg_setFl (f k) : (s.setFl f).reg k = s.reg k := rfl
@[simp] theorem reg_setRunState (r k) : (s.setRunState r).reg k = s.reg k := rfl
@[simp] theorem reg_setOut (o k) : (s.setOut o).reg k = s.reg k := rfl
@[simp] theorem reg_setMem (m k) : (s.setMem m).reg k = s.reg k := rfl
@[simp] theorem reg_raise (e k) : (s.raise e).reg k = s.reg k := rfl

/-- `advance` is a `pc` write. -/
theorem advance_eq (n : Addr) : s.advance n = s.setPc (s.pc + n) := rfl

/-- `emit` is an append to `OUT`. -/
theorem emit_eq (v : Byte) : s.emit v = s.setOut (s.out ++ [v]) := rfl

end Sys2Proof.Machine.State
end

