-- ==== Sys2Proof/Laws/Operands.lean ====
section
/-! SUPPORT. The register accesses and the ALU block: all that each can do, said once. -/

namespace Sys2Proof.Machine

@[simp] theorem except_ok_bind {ε α β : Type} (a : α) (f : α → Except ε β) : (Except.ok a >>= f) = f a := rfl
@[simp] theorem except_error_bind {ε α β : Type} (e : ε) (f : α → Except ε β) :
    ((Except.error e : Except ε α) >>= f) = Except.error e := rfl
@[simp] theorem except_pure {ε α : Type} (a : α) : (pure a : Except ε α) = Except.ok a := rfl

@[simp] theorem finish_ok (s t : State) : finish s (.ok t) = .next t := rfl
@[simp] theorem finish_error (s : State) (e : CoreError) : finish s (.error e) = .next (s.raise e) := rfl

/-- A handler always ends in a next state. -/
theorem finish_next (s : State) (r : Except CoreError State) : ∃ t, finish s r = .next t := by
  cases r with
  | ok t => exact ⟨t, rfl⟩
  | error e => exact ⟨s.raise e, rfl⟩

theorem readReg_ok {s : State} {i : Byte} (h : i.toNat < 8) : readReg s i = .ok (s.reg ⟨i.toNat, h⟩) := by
  simp [readReg, h, State.reg]

theorem readReg_error {s : State} {i : Byte} (h : 8 ≤ i.toNat) : readReg s i = .error (.registerIndex i) := by
  simp [readReg, Nat.not_lt.2 h]

theorem writeReg_ok {s : State} {i v : Byte} (h : i.toNat < 8) :
    writeReg s i v = .ok (s.setRegs (s.regs.set i.toNat v h)) := by
  simp [writeReg, h]

theorem writeReg_error {s : State} {i v : Byte} (h : 8 ≤ i.toNat) : writeReg s i v = .error (.registerIndex i) := by
  simp [writeReg, Nat.not_lt.2 h]

/-- All a register read can do. -/
theorem readReg_cases (s : State) (i : Byte) :
    (∃ h : i.toNat < 8, readReg s i = .ok (s.reg ⟨i.toNat, h⟩)) ∨
      (8 ≤ i.toNat ∧ readReg s i = .error (.registerIndex i)) := by
  rcases Nat.lt_or_ge i.toNat 8 with h | h
  · exact .inl ⟨h, readReg_ok h⟩
  · exact .inr ⟨h, readReg_error h⟩

/-- All a register write can do. -/
theorem writeReg_cases (s : State) (i v : Byte) :
    (∃ h : i.toNat < 8, writeReg s i v = .ok (s.setRegs (s.regs.set i.toNat v h))) ∨
      (8 ≤ i.toNat ∧ writeReg s i v = .error (.registerIndex i)) := by
  rcases Nat.lt_or_ge i.toNat 8 with h | h
  · exact .inl ⟨h, writeReg_ok h⟩
  · exact .inr ⟨h, writeReg_error h⟩

/-- The written register reads the value, every other one its old value. -/
theorem reg_set (s : State) (i v : Byte) (h : i.toNat < 8) (k : Fin 8) :
    (s.setRegs (s.regs.set i.toNat v h)).reg k = if k.val = i.toNat then v else s.reg k := by
  rw [State.reg_setRegs, Fin.getElem_fin, Vector.getElem_set]
  simp [State.reg, eq_comm]

/-- All an ALU invocation can do (40_alu.md R70 to R75, in the order of its checks). -/
theorem compute_cases (tag : BitVec 4) (regA regB : Byte) (s : State) :
    (AluOp.ofTag tag = none ∧ compute tag regA regB s = .error (.unsupportedOperation tag)) ∨
    ((∃ op, AluOp.ofTag tag = some op) ∧ 8 ≤ regA.toNat ∧ compute tag regA regB s = .error (.registerIndex regA)) ∨
    ((∃ op, AluOp.ofTag tag = some op) ∧ regA.toNat < 8 ∧ 8 ≤ regB.toNat ∧
      compute tag regA regB s = .error (.registerIndex regB)) ∨
    (∃ op, ∃ ha : regA.toNat < 8, ∃ hb : regB.toNat < 8, AluOp.ofTag tag = some op ∧
      compute tag regA regB s =
        op.writeBack s regA (op.result (s.reg ⟨regA.toNat, ha⟩) (s.reg ⟨regB.toNat, hb⟩))) := by
  cases ht : AluOp.ofTag tag with
  | none => exact .inl ⟨rfl, by simp [compute, ht]⟩
  | some op =>
    rcases Nat.lt_or_ge regA.toNat 8 with ha | ha
    · rcases Nat.lt_or_ge regB.toNat 8 with hb | hb
      · exact .inr (.inr (.inr ⟨op, ha, hb, rfl, by simp [compute, ht, readReg_ok ha, readReg_ok hb]⟩))
      · exact .inr (.inr (.inl ⟨⟨op, rfl⟩, ha, hb, by simp [compute, ht, readReg_ok ha, readReg_error hb]⟩))
    · exact .inr (.inl ⟨⟨op, rfl⟩, ha, by simp [compute, ht, readReg_error ha]⟩)

/-- All a comparison can give (40_alu.md R74): the unsigned order decides. -/
theorem compareFlags_cases (a b : Byte) :
    (a.toNat = b.toNat ∧ compareFlags a b = 0x01#8) ∨ (a.toNat < b.toNat ∧ compareFlags a b = 0x04#8) ∨
      (b.toNat < a.toNat ∧ compareFlags a b = 0x02#8) := by
  rcases Nat.lt_trichotomy a.toNat b.toNat with h | h | h
  · exact .inr (.inl ⟨h, by rw [compareFlags, if_neg (by rintro rfl; omega), if_pos h]⟩)
  · exact .inl ⟨h, by rw [compareFlags, if_pos (BitVec.eq_of_toNat_eq h)]⟩
  · exact .inr (.inr ⟨h, by rw [compareFlags, if_neg (by rintro rfl; omega), if_neg (by omega)]⟩)

/-- The compare tag is the tag of CMP (D16). -/
theorem ofTag_cmp : AluOp.ofTag 0x7#4 = some .cmp := by decide

end Sys2Proof.Machine
end

