-- ==== Sys2Proof/Laws/Exec.lean ====
section
/-! SUPPORT. One spec lemma per meaning: all that its handler can do, so that no proof unfolds it again. -/

namespace Sys2Proof.Machine

theorem execHalt_eq (s : State) : execHalt s = .next ((s.setPc 0#9).setRunState .halted) := rfl

theorem execLoadImmediate_cases (op1 op2 : Byte) (s : State) :
    (∃ h : op1.toNat < 8, execLoadImmediate op1 op2 s =
        .next ((s.setRegs (s.regs.set op1.toNat op2 h)).setPc (s.pc + 3#9))) ∨
      (8 ≤ op1.toNat ∧ execLoadImmediate op1 op2 s = .next (s.raise (.registerIndex op1))) := by
  rcases writeReg_cases s op1 op2 with ⟨h, e⟩ | ⟨h, e⟩
  · exact .inl ⟨h, by simp [execLoadImmediate, e, State.advance_eq]⟩
  · exact .inr ⟨h, by simp [execLoadImmediate, e]⟩

theorem execPrintRegister_cases (op1 : Byte) (s : State) :
    (∃ h : op1.toNat < 8, execPrintRegister op1 s =
        .next ((s.setOut (s.out ++ [s.reg ⟨op1.toNat, h⟩])).setPc (s.pc + 2#9))) ∨
      (8 ≤ op1.toNat ∧ execPrintRegister op1 s = .next (s.raise (.registerIndex op1))) := by
  rcases readReg_cases s op1 with ⟨h, e⟩ | ⟨h, e⟩
  · exact .inl ⟨h, by simp [execPrintRegister, e, State.advance_eq, State.emit_eq]⟩
  · exact .inr ⟨h, by simp [execPrintRegister, e]⟩

theorem execCompare_cases (op1 op2 : Byte) (s : State) :
    (∃ h1 : op1.toNat < 8, ∃ h2 : op2.toNat < 8, execCompare op1 op2 s =
        .next ((s.setFl (compareFlags (s.reg ⟨op1.toNat, h1⟩) (s.reg ⟨op2.toNat, h2⟩))).setPc (s.pc + 3#9))) ∨
      (8 ≤ op1.toNat ∧ execCompare op1 op2 s = .next (s.raise (.registerIndex op1))) ∨
      (op1.toNat < 8 ∧ 8 ≤ op2.toNat ∧ execCompare op1 op2 s = .next (s.raise (.registerIndex op2))) := by
  rcases compute_cases 0x7#4 op1 op2 s with ⟨h, -⟩ | ⟨-, h, e⟩ | ⟨-, h1, h2, e⟩ | ⟨op, h1, h2, ho, e⟩
  · simp [ofTag_cmp] at h
  · exact .inr (.inl ⟨h, by simp [execCompare, e]⟩)
  · exact .inr (.inr ⟨h1, h2, by simp [execCompare, e]⟩)
  · obtain rfl : op = .cmp := by simpa [ofTag_cmp] using ho.symm
    exact .inl ⟨h1, h2, by simp [execCompare, e, AluOp.writeBack, AluOp.result, State.advance_eq]⟩

theorem jumpThrough_cases (op1 : Byte) (s : State) :
    (∃ h : op1.toNat < 8, jumpThrough op1 s = .ok (s.setPc (zext9 (s.reg ⟨op1.toNat, h⟩)))) ∨
      (8 ≤ op1.toNat ∧ jumpThrough op1 s = .error (.registerIndex op1)) := by
  rcases readReg_cases s op1 with ⟨h, e⟩ | ⟨h, e⟩
  · exact .inl ⟨h, by simp [jumpThrough, e]⟩
  · exact .inr ⟨h, by simp [jumpThrough, e]⟩

theorem execJump_cases (op1 : Byte) (s : State) :
    (∃ h : op1.toNat < 8, execJump op1 s = .next (s.setPc (zext9 (s.reg ⟨op1.toNat, h⟩)))) ∨
      (8 ≤ op1.toNat ∧ execJump op1 s = .next (s.raise (.registerIndex op1))) := by
  rcases jumpThrough_cases op1 s with ⟨h, e⟩ | ⟨h, e⟩
  · exact .inl ⟨h, by simp [execJump, e]⟩
  · exact .inr ⟨h, by simp [execJump, e]⟩

/-- An untaken conditional jump only advances; a taken one is a jump (46_jumps.md R121, R122, R124). -/
theorem execJumpIfEqual_eq (op1 : Byte) (s : State) :
    execJumpIfEqual op1 s = if flagE s.fl then execJump op1 s else .next (s.setPc (s.pc + 2#9)) := by
  cases h : flagE s.fl <;> simp [execJumpIfEqual, jumpWhen, execJump, h, State.advance_eq]

theorem execJumpIfNotEqual_eq (op1 : Byte) (s : State) :
    execJumpIfNotEqual op1 s = if flagE s.fl then .next (s.setPc (s.pc + 2#9)) else execJump op1 s := by
  cases h : flagE s.fl <;> simp [execJumpIfNotEqual, jumpWhen, execJump, h, State.advance_eq]

end Sys2Proof.Machine
end

