-- ==== Sys2Proof/Laws/Memory.lean ====
section
/-! SUPPORT. The memory array: read after write, the canonical form, equality from equal bytes. -/

namespace Sys2Proof.Machine

/-! ### The canonical form -/

theorem Memory.wfFrom_cons {lo a : Nat} {v : Byte} {m : Memory} :
    Memory.wfFrom lo ((a, v) :: m) = true ↔
      lo ≤ a ∧ a < 256 ∧ v ≠ Memory.unlisted ∧ Memory.wfFrom (a + 1) m = true := by
  simp [Memory.wfFrom, and_assoc]

theorem Memory.wfFrom_mono {m : Memory} {lo hi : Nat} (h : lo ≤ hi) (hm : Memory.wfFrom hi m = true) :
    Memory.wfFrom lo m = true := by
  cases m with
  | nil => rfl
  | cons c m =>
    obtain ⟨a, v⟩ := c
    rw [Memory.wfFrom_cons] at hm ⊢
    exact ⟨by omega, hm.2⟩

/-- Below the first address a canonical memory may list, every byte is unlisted. -/
theorem Memory.byteAt_below {m : Memory} {lo a : Nat} (hm : Memory.wfFrom lo m = true) (h : a < lo) :
    Memory.byteAt m a = Memory.unlisted := by
  induction m generalizing lo with
  | nil => rfl
  | cons c m ih =>
    obtain ⟨b, v⟩ := c
    rw [Memory.wfFrom_cons] at hm
    have hne : b ≠ a := by omega
    simp only [Memory.byteAt, if_neg hne]
    exact ih hm.2.2.2 (by omega)

/-- An address past the array is listed by no canonical memory. -/
theorem Memory.byteAt_above {m : Memory} {lo a : Nat} (hm : Memory.wfFrom lo m = true) (h : 256 ≤ a) :
    Memory.byteAt m a = Memory.unlisted := by
  induction m generalizing lo with
  | nil => rfl
  | cons c m ih =>
    obtain ⟨b, v⟩ := c
    rw [Memory.wfFrom_cons] at hm
    have hne : b ≠ a := by omega
    simp only [Memory.byteAt, if_neg hne]
    exact ih hm.2.2.2

theorem Memory.store_wfFrom {m : Memory} {lo a : Nat} {v : Byte} (hm : Memory.wfFrom lo m = true) (hlo : lo ≤ a)
    (ha : a < 256) : Memory.wfFrom lo (Memory.store m a v) = true := by
  induction m generalizing lo with
  | nil =>
    by_cases hv : v = Memory.unlisted <;> simp [Memory.store, hv, Memory.wfFrom, hlo, ha]
  | cons c m ih =>
    obtain ⟨b, w⟩ := c
    rw [Memory.wfFrom_cons] at hm
    obtain ⟨h1, h2, h3, h4⟩ := hm
    simp only [Memory.store]
    split_ifs with hab hv he hv
    · exact Memory.wfFrom_cons.2 ⟨h1, h2, h3, h4⟩
    · exact Memory.wfFrom_cons.2 ⟨hlo, ha, hv, Memory.wfFrom_cons.2 ⟨by omega, h2, h3, h4⟩⟩
    · exact Memory.wfFrom_mono (by omega) h4
    · subst he; exact Memory.wfFrom_cons.2 ⟨hlo, ha, hv, h4⟩
    · exact Memory.wfFrom_cons.2 ⟨h1, h2, h3, ih h4 (by omega)⟩

/-- A store below 256 keeps the canonical form. -/
theorem Memory.store_wf {m : Memory} {a : Nat} {v : Byte} (hm : Memory.wf m = true) (ha : a < 256) :
    Memory.wf (Memory.store m a v) = true :=
  Memory.store_wfFrom hm (Nat.zero_le a) ha

/-- Storing a list of bytes keeps the canonical form, wherever it starts. -/
theorem Memory.storeList_wf {bytes : List Byte} {m : Memory} {a : Nat} (hm : Memory.wf m = true) :
    Memory.wf (Memory.storeList m a bytes) = true := by
  induction bytes generalizing m a with
  | nil => exact hm
  | cons v vs ih =>
    simp only [Memory.storeList]
    split_ifs with ha
    · exact ih (Memory.store_wf hm ha)
    · exact ih hm

theorem memWrite_wf {s t : State} {a : Addr} {v : Byte} (hs : Memory.wf s.mem = true) (h : memWrite s a v = .ok t) :
    Memory.wf t.mem = true := by
  unfold memWrite at h
  split_ifs at h with ha
  cases h
  exact Memory.store_wf hs ha

theorem bulkLoad_wf {s t : State} {start : Nat} {bytes : List Byte} (hs : Memory.wf s.mem = true)
    (h : bulkLoad s start bytes = .ok t) : Memory.wf t.mem = true := by
  unfold bulkLoad at h
  split_ifs at h
  cases h
  exact Memory.storeList_wf hs

theorem placeFetchWord_wf {s : State} {nbits w : Nat} (hs : Memory.wf s.mem = true) :
    Memory.wf (placeFetchWord s nbits w).mem = true :=
  Memory.storeList_wf hs

theorem reset_mem_wf : Memory.wf State.reset.mem = true := rfl

/-! ### Read after write -/

theorem Memory.byteAt_store_from {m : Memory} {lo a : Nat} {v : Byte} (hm : Memory.wfFrom lo m = true) (c : Nat) :
    Memory.byteAt (Memory.store m a v) c = if c = a then v else Memory.byteAt m c := by
  induction m generalizing lo with
  | nil =>
    by_cases hv : v = Memory.unlisted
    · simp [Memory.store, hv, Memory.byteAt]
    · by_cases hc : c = a
      · simp [Memory.store, hv, Memory.byteAt, hc]
      · simp [Memory.store, hv, Memory.byteAt, hc, Ne.symm hc]
  | cons d m ih =>
    obtain ⟨b, w⟩ := d
    obtain ⟨h1, h2, h3, h4⟩ := Memory.wfFrom_cons.1 hm
    rcases Nat.lt_trichotomy a b with hab | hab | hab
    · by_cases hv : v = Memory.unlisted
      · by_cases hc : c = a
        · subst hc
          simp only [Memory.store, if_pos hab, if_pos hv, if_true]
          rw [hv]
          exact Memory.byteAt_below (Memory.wfFrom_cons.2 ⟨le_refl b, h2, h3, h4⟩) hab
        · simp [Memory.store, hab, hv, hc]
      · by_cases hc : c = a
        · simp [Memory.store, Memory.byteAt, hab, hv, hc]
        · simp [Memory.store, Memory.byteAt, hab, hv, hc, Ne.symm hc]
    · subst hab
      by_cases hc : c = a
      · subst hc
        by_cases hv : v = Memory.unlisted
        · simp only [Memory.store, lt_irrefl, if_false, if_true, if_pos hv]
          rw [hv]
          exact Memory.byteAt_below h4 (Nat.lt_succ_self c)
        · simp [Memory.store, Memory.byteAt, hv]
      · by_cases hv : v = Memory.unlisted <;> simp [Memory.store, Memory.byteAt, hv, hc, Ne.symm hc]
    · have h5 : ¬a < b := by omega
      have h6 : a ≠ b := by omega
      by_cases hb : b = c
      · subst hb
        simp [Memory.store, Memory.byteAt, h5, h6, Ne.symm h6]
      · simp only [Memory.store, if_neg h5, if_neg h6, Memory.byteAt, if_neg hb]
        exact ih h4

/-- Read after write (20_memory.md R32, R33). -/
theorem Memory.byteAt_store {m : Memory} {a : Nat} {v : Byte} (hm : Memory.wf m = true) (c : Nat) :
    Memory.byteAt (Memory.store m a v) c = if c = a then v else Memory.byteAt m c :=
  Memory.byteAt_store_from hm c

/-- What every address reads after a list of bytes was stored inside the array (R34). -/
theorem Memory.byteAt_storeList {bytes : List Byte} {m : Memory} {a : Nat} (hm : Memory.wf m = true)
    (hfit : a + bytes.length ≤ 256) (c : Nat) :
    Memory.byteAt (Memory.storeList m a bytes) c =
      if a ≤ c ∧ c < a + bytes.length then bytes.getD (c - a) Memory.unlisted else Memory.byteAt m c := by
  induction bytes generalizing m a with
  | nil =>
    simp [Memory.storeList]
  | cons v vs ih =>
    have ha : a < 256 := by simp at hfit; omega
    simp only [List.length_cons] at hfit ⊢
    rw [Memory.storeList, if_pos ha, ih (Memory.store_wf hm ha) (by omega), Memory.byteAt_store hm]
    rcases Nat.lt_trichotomy c a with h | h | h
    · have h1 : ¬(a + 1 ≤ c ∧ c < a + 1 + vs.length) := by omega
      have h2 : ¬(a ≤ c ∧ c < a + (vs.length + 1)) := by omega
      rw [if_neg h1, if_neg h2, if_neg (by omega)]
    · subst h
      have h1 : ¬(c + 1 ≤ c ∧ c < c + 1 + vs.length) := by omega
      have h2 : c ≤ c ∧ c < c + (vs.length + 1) := by omega
      rw [if_neg h1, if_pos h2]
      simp
    · by_cases hc : c < a + (vs.length + 1)
      · have h1 : a + 1 ≤ c ∧ c < a + 1 + vs.length := by omega
        have h2 : a ≤ c ∧ c < a + (vs.length + 1) := by omega
        have h3 : c - a = (c - (a + 1)) + 1 := by omega
        rw [if_pos h1, if_pos h2, h3]
        simp
      · have h1 : ¬(a + 1 ≤ c ∧ c < a + 1 + vs.length) := by omega
        have h2 : ¬(a ≤ c ∧ c < a + (vs.length + 1)) := by omega
        rw [if_neg h1, if_neg h2, if_neg (by omega)]

/-! ### Equal bytes, equal memories -/

theorem Memory.ext_from {m n : Memory} {lo : Nat} (hm : Memory.wfFrom lo m = true) (hn : Memory.wfFrom lo n = true)
    (h : ∀ a, Memory.byteAt m a = Memory.byteAt n a) : m = n := by
  induction m generalizing n lo with
  | nil =>
    cases n with
    | nil => rfl
    | cons d n =>
      obtain ⟨b, w⟩ := d
      obtain ⟨-, -, hw, -⟩ := Memory.wfFrom_cons.1 hn
      have := h b
      simp [Memory.byteAt] at this
      exact absurd this.symm hw
  | cons c m ih =>
    obtain ⟨a, v⟩ := c
    obtain ⟨h1, h2, h3, h4⟩ := Memory.wfFrom_cons.1 hm
    cases n with
    | nil =>
      have := h a
      simp [Memory.byteAt] at this
      exact absurd this h3
    | cons d n =>
      obtain ⟨b, w⟩ := d
      obtain ⟨k1, k2, k3, k4⟩ := Memory.wfFrom_cons.1 hn
      have hab : a = b := by
        rcases Nat.lt_trichotomy a b with hlt | heq | hgt
        · have := h a
          rw [Memory.byteAt_below (lo := b) (Memory.wfFrom_cons.2 ⟨le_refl b, k2, k3, k4⟩) hlt] at this
          simp [Memory.byteAt] at this
          exact absurd this h3
        · exact heq
        · have := h b
          rw [Memory.byteAt_below (lo := a) (Memory.wfFrom_cons.2 ⟨le_refl a, h2, h3, h4⟩) hgt] at this
          simp [Memory.byteAt] at this
          exact absurd this.symm k3
      subst hab
      have hvw : v = w := by simpa [Memory.byteAt] using h a
      subst hvw
      congr 1
      refine ih h4 k4 (fun x => ?_)
      by_cases hx : x = a
      · subst hx
        rw [Memory.byteAt_below h4 (by omega), Memory.byteAt_below k4 (by omega)]
      · have hax : a ≠ x := Ne.symm hx
        simpa [Memory.byteAt, hax] using h x

/-- Canonical memories that read the same everywhere are the same list. -/
theorem Memory.eq_of_byteAt_eq {m n : Memory} (hm : Memory.wf m = true) (hn : Memory.wf n = true)
    (h : ∀ a, Memory.byteAt m a = Memory.byteAt n a) : m = n :=
  Memory.ext_from hm hn h

/-! ### The access primitives -/

theorem memRead_ok {m : Memory} {a : Addr} (h : a.toNat < 256) : memRead m a = .ok (Memory.byteAt m a.toNat) := by
  simp [memRead, h]

theorem memRead_error {m : Memory} {a : Addr} (h : 256 ≤ a.toNat) : memRead m a = .error (.address a) := by
  simp [memRead, Nat.not_lt.2 h]

/-- All a memory write can do (20_memory.md R33). -/
theorem memWrite_cases (s : State) (a : Addr) (v : Byte) :
    (a.toNat < 256 ∧ memWrite s a v = .ok (s.setMem (Memory.store s.mem a.toNat v))) ∨
      (256 ≤ a.toNat ∧ memWrite s a v = .error (.address a)) := by
  rcases Nat.lt_or_ge a.toNat 256 with h | h
  · exact .inl ⟨h, by simp [memWrite, h]⟩
  · exact .inr ⟨h, by simp [memWrite, Nat.not_lt.2 h]⟩

/-- All a bulk load can do (20_memory.md R34). -/
theorem bulkLoad_cases (s : State) (start : Nat) (bytes : List Byte) :
    (start + bytes.length ≤ 256 ∧ bulkLoad s start bytes = .ok (s.setMem (Memory.storeList s.mem start bytes))) ∨
      (256 < start + bytes.length ∧ bulkLoad s start bytes = .error .programLoadError) := by
  rcases Nat.lt_or_ge 256 (start + bytes.length) with h | h
  · exact .inr ⟨h, by simp [bulkLoad, Nat.not_le.2 h]⟩
  · exact .inl ⟨h, by simp [bulkLoad, h]⟩

end Sys2Proof.Machine
end

