-- ==== Sys2Proof/Laws/Step.lean ====
section
/-! SUPPORT. The dispatch table, the fetch and the step: all that each can do, said once. -/

namespace Sys2Proof

/-- All the dispatch table can answer (30_encoding.md R54 to R56). -/
theorem dispatch_cases (opc : Byte) :
    (opc = 0x01#8 ∧ dispatch opc = some (.f0 .halt)) ∨
    (opc = 0x82#8 ∧ dispatch opc = some (.f2 .loadImmediate)) ∨
    (opc = 0x47#8 ∧ dispatch opc = some (.f1 .printRegister)) ∨
    (opc = 0xA7#8 ∧ dispatch opc = some (.f2 .compare)) ∨
    (opc = 0x54#8 ∧ dispatch opc = some (.f1 .jump)) ∨
    (opc = 0x55#8 ∧ dispatch opc = some (.f1 .jumpIfEqual)) ∨
    (opc = 0x56#8 ∧ dispatch opc = some (.f1 .jumpIfNotEqual)) ∨
    ((opc ≠ 0x01#8 ∧ opc ≠ 0x82#8 ∧ opc ≠ 0x47#8 ∧ opc ≠ 0xA7#8 ∧ opc ≠ 0x54#8 ∧ opc ≠ 0x55#8 ∧ opc ≠ 0x56#8) ∧
      dispatch opc = none) := by
  unfold dispatch
  split_ifs with h1 h2 h3 h4 h5 h6 h7 <;> simp_all

theorem dispatch_none {opc : Byte} (h : dispatch opc = none) :
    opc ∉ [0x01#8, 0x82#8, 0x47#8, 0xA7#8, 0x54#8, 0x55#8, 0x56#8] := by
  rcases dispatch_cases opc with ⟨-, e⟩ | ⟨-, e⟩ | ⟨-, e⟩ | ⟨-, e⟩ | ⟨-, e⟩ | ⟨-, e⟩ | ⟨-, e⟩ | ⟨hne, -⟩
  case inr.inr.inr.inr.inr.inr.inr => simpa using hne
  all_goals rw [e] at h; cases h

/-- HALT alone has format F0. -/
theorem dispatch_f0 {opc : Byte} {i : Instr} (h : dispatch opc = some (.f0 i)) : opc = 0x01#8 ∧ i = .halt := by
  rcases dispatch_cases opc with ⟨ho, e⟩ | ⟨ho, e⟩ | ⟨ho, e⟩ | ⟨ho, e⟩ | ⟨ho, e⟩ | ⟨ho, e⟩ | ⟨ho, e⟩ | ⟨-, e⟩ <;>
    rw [e] at h <;> cases h
  exact ⟨ho, rfl⟩

/-- The opcodes of format F1. -/
theorem dispatch_f1 {opc : Byte} {mk : Byte → Instr} (h : dispatch opc = some (.f1 mk)) :
    (opc = 0x47#8 ∧ mk = .printRegister) ∨ (opc = 0x54#8 ∧ mk = .jump) ∨ (opc = 0x55#8 ∧ mk = .jumpIfEqual) ∨
      (opc = 0x56#8 ∧ mk = .jumpIfNotEqual) := by
  rcases dispatch_cases opc with ⟨ho, e⟩ | ⟨ho, e⟩ | ⟨ho, e⟩ | ⟨ho, e⟩ | ⟨ho, e⟩ | ⟨ho, e⟩ | ⟨ho, e⟩ | ⟨-, e⟩ <;>
    rw [e] at h <;> cases h <;> simp [ho]

/-- The opcodes of format F2. -/
theorem dispatch_f2 {opc : Byte} {mk : Byte → Byte → Instr} (h : dispatch opc = some (.f2 mk)) :
    (opc = 0x82#8 ∧ mk = .loadImmediate) ∨ (opc = 0xA7#8 ∧ mk = .compare) := by
  rcases dispatch_cases opc with ⟨ho, e⟩ | ⟨ho, e⟩ | ⟨ho, e⟩ | ⟨ho, e⟩ | ⟨ho, e⟩ | ⟨ho, e⟩ | ⟨ho, e⟩ | ⟨-, e⟩ <;>
    rw [e] at h <;> cases h <;> simp [ho]

end Sys2Proof

namespace Sys2Proof.Machine

/-- Byte `k` from `pc`, when it is in memory. -/
theorem codeBytes_getElem? (s : State) (k : Nat) :
    (codeBytes s)[k]? =
      if s.pc.toNat + k < 256 then some (Memory.byteAt s.mem (s.pc.toNat + k)) else none := by
  rw [codeBytes, List.getElem?_map]
  split_ifs with h
  · rw [List.getElem?_range (by omega)]; rfl
  · rw [List.getElem?_eq_none (by simp; omega)]; rfl

/-- All a fetch can do, by the format of the opcode at `pc` (41_execution_engine.md R81, R83). -/
theorem fetchInstr_cases (s : State) :
    (256 ≤ s.pc.toNat ∧ fetchInstr s = .error (.address s.pc)) ∨
    (s.pc.toNat < 256 ∧
      ((dispatch (Memory.byteAt s.mem s.pc.toNat) = none ∧
          fetchInstr s = .error (.unknownOpcode (Memory.byteAt s.mem s.pc.toNat))) ∨
       (∃ i, dispatch (Memory.byteAt s.mem s.pc.toNat) = some (.f0 i) ∧ fetchInstr s = .ok i) ∨
       (∃ mk, dispatch (Memory.byteAt s.mem s.pc.toNat) = some (.f1 mk) ∧
          ((s.pc.toNat = 255 ∧ fetchInstr s = .error (.address 256#9)) ∨
           (s.pc.toNat < 255 ∧ fetchInstr s = .ok (mk (Memory.byteAt s.mem (s.pc.toNat + 1)))))) ∨
       (∃ mk, dispatch (Memory.byteAt s.mem s.pc.toNat) = some (.f2 mk) ∧
          ((254 ≤ s.pc.toNat ∧ fetchInstr s = .error (.address 256#9)) ∨
           (s.pc.toNat < 254 ∧ fetchInstr s =
              .ok (mk (Memory.byteAt s.mem (s.pc.toNat + 1)) (Memory.byteAt s.mem (s.pc.toNat + 2)))))))) := by
  have hend : memRead s.mem 256#9 = .error (.address 256#9) := memRead_error (by decide)
  rcases Nat.lt_or_ge s.pc.toNat 256 with hpc | hpc
  · refine .inr ⟨hpc, ?_⟩
    have h1 : (s.pc + 1#9).toNat = s.pc.toNat + 1 := by
      rw [BitVec.toNat_add]; simp; omega
    have h2 : (s.pc + 2#9).toNat = s.pc.toNat + 2 := by
      rw [BitVec.toNat_add]; simp; omega
    cases hd : dispatch (Memory.byteAt s.mem s.pc.toNat) with
    | none => exact .inl ⟨rfl, by simp [fetchInstr, memRead_ok hpc, hd]⟩
    | some h =>
      cases h with
      | f0 i => exact .inr (.inl ⟨i, rfl, by simp [fetchInstr, memRead_ok hpc, hd]⟩)
      | f1 mk =>
        refine .inr (.inr (.inl ⟨mk, rfl, ?_⟩))
        rcases Nat.lt_or_ge s.pc.toNat 255 with h | h
        · refine .inr ⟨h, ?_⟩
          simp [fetchInstr, memRead_ok hpc, hd, memRead_ok (a := s.pc + 1#9) (m := s.mem) (by omega), h1]
        · have he : s.pc + 1#9 = 256#9 := BitVec.eq_of_toNat_eq (by rw [h1]; simp; omega)
          refine .inl ⟨by omega, ?_⟩
          simp [fetchInstr, memRead_ok hpc, hd, he, hend]
      | f2 mk =>
        refine .inr (.inr (.inr ⟨mk, rfl, ?_⟩))
        rcases Nat.lt_or_ge s.pc.toNat 254 with h | h
        · refine .inr ⟨h, ?_⟩
          simp [fetchInstr, memRead_ok hpc, hd, memRead_ok (a := s.pc + 1#9) (m := s.mem) (by omega),
            memRead_ok (a := s.pc + 2#9) (m := s.mem) (by omega), h1, h2]
        · refine .inl ⟨h, ?_⟩
          rcases Nat.lt_or_ge s.pc.toNat 255 with h' | h'
          · have he : s.pc + 2#9 = 256#9 := BitVec.eq_of_toNat_eq (by rw [h2]; simp; omega)
            simp [fetchInstr, memRead_ok hpc, hd, memRead_ok (a := s.pc + 1#9) (m := s.mem) (by omega), he, hend]
          · have he : s.pc + 1#9 = 256#9 := BitVec.eq_of_toNat_eq (by rw [h1]; simp; omega)
            simp [fetchInstr, memRead_ok hpc, hd, he, hend]
  · exact .inl ⟨hpc, by simp [fetchInstr, memRead_error hpc]⟩

/-! The fetch, once the table's answer for the opcode is known. -/

theorem fetchInstr_f0 {s : State} {i : Instr} (hpc : s.pc.toNat < 256)
    (hd : dispatch (Memory.byteAt s.mem s.pc.toNat) = some (.f0 i)) : fetchInstr s = .ok i := by
  rcases fetchInstr_cases s with ⟨h, -⟩ | ⟨-, ⟨h, -⟩ | ⟨j, h, e⟩ | ⟨mk, h, -⟩ | ⟨mk, h, -⟩⟩
  · omega
  all_goals rw [hd] at h; cases h
  exact e

theorem fetchInstr_f1 {s : State} {mk : Byte → Instr} (hpc : s.pc.toNat < 255)
    (hd : dispatch (Memory.byteAt s.mem s.pc.toNat) = some (.f1 mk)) :
    fetchInstr s = .ok (mk (Memory.byteAt s.mem (s.pc.toNat + 1))) := by
  rcases fetchInstr_cases s with ⟨h, -⟩ | ⟨-, ⟨h, -⟩ | ⟨j, h, e⟩ | ⟨mk, h, e⟩ | ⟨mk, h, -⟩⟩
  · omega
  all_goals rw [hd] at h; cases h
  rcases e with ⟨h, -⟩ | ⟨-, e⟩
  · omega
  · exact e

theorem fetchInstr_f1_end {s : State} {mk : Byte → Instr} (hpc : s.pc.toNat = 255)
    (hd : dispatch (Memory.byteAt s.mem s.pc.toNat) = some (.f1 mk)) : fetchInstr s = .error (.address 256#9) := by
  rcases fetchInstr_cases s with ⟨h, -⟩ | ⟨-, ⟨h, -⟩ | ⟨j, h, e⟩ | ⟨mk, h, e⟩ | ⟨mk, h, -⟩⟩
  · omega
  all_goals rw [hd] at h; cases h
  rcases e with ⟨-, e⟩ | ⟨h, -⟩
  · exact e
  · omega

theorem fetchInstr_f2 {s : State} {mk : Byte → Byte → Instr} (hpc : s.pc.toNat < 254)
    (hd : dispatch (Memory.byteAt s.mem s.pc.toNat) = some (.f2 mk)) :
    fetchInstr s = .ok (mk (Memory.byteAt s.mem (s.pc.toNat + 1)) (Memory.byteAt s.mem (s.pc.toNat + 2))) := by
  rcases fetchInstr_cases s with ⟨h, -⟩ | ⟨-, ⟨h, -⟩ | ⟨j, h, e⟩ | ⟨mk, h, -⟩ | ⟨mk, h, e⟩⟩
  · omega
  all_goals rw [hd] at h; cases h
  rcases e with ⟨h, -⟩ | ⟨-, e⟩
  · omega
  · exact e

theorem fetchInstr_f2_end {s : State} {mk : Byte → Byte → Instr} (hpc : s.pc.toNat < 256) (hend : 254 ≤ s.pc.toNat)
    (hd : dispatch (Memory.byteAt s.mem s.pc.toNat) = some (.f2 mk)) : fetchInstr s = .error (.address 256#9) := by
  rcases fetchInstr_cases s with ⟨h, -⟩ | ⟨-, ⟨h, -⟩ | ⟨j, h, e⟩ | ⟨mk, h, -⟩ | ⟨mk, h, e⟩⟩
  · omega
  all_goals rw [hd] at h; cases h
  rcases e with ⟨-, e⟩ | ⟨h, -⟩
  · exact e
  · omega

theorem fetchInstr_unknown {s : State} (hpc : s.pc.toNat < 256)
    (hd : dispatch (Memory.byteAt s.mem s.pc.toNat) = none) :
    fetchInstr s = .error (.unknownOpcode (Memory.byteAt s.mem s.pc.toNat)) := by
  rcases fetchInstr_cases s with ⟨h, -⟩ | ⟨-, ⟨-, e⟩ | ⟨j, h, -⟩ | ⟨mk, h, -⟩ | ⟨mk, h, -⟩⟩
  · omega
  · exact e
  all_goals rw [hd] at h; cases h

/-- The sequential advances do not wrap when the instruction's bytes are all in memory (10_state.md R15, R16). -/
theorem toNat_add_one {a : Addr} (h : a.toNat < 511) : (a + 1#9).toNat = a.toNat + 1 := by
  rw [BitVec.toNat_add]; simp; omega

theorem toNat_add_two {a : Addr} (h : a.toNat < 510) : (a + 2#9).toNat = a.toNat + 2 := by
  rw [BitVec.toNat_add]; simp; omega

theorem toNat_add_three {a : Addr} (h : a.toNat < 509) : (a + 3#9).toNat = a.toNat + 3 := by
  rw [BitVec.toNat_add]; simp; omega

@[simp] theorem toNat_zext9 (v : Byte) : (zext9 v).toNat = v.toNat := by
  have := v.isLt
  simp only [zext9, BitVec.toNat_setWidth]
  omega

/-- The step of a RUNNING state whose fetch gives an instruction is that instruction's handler. -/
theorem step_of_fetch_ok {s : State} {i : Instr} (hr : s.runState = .running) (h : fetchInstr s = .ok i) :
    step s = exec i s := by
  simp [step, stepWith, hr, h]

/-- The step of a RUNNING state whose fetch fails is the fault entry. -/
theorem step_of_fetch_error {s : State} {e : CoreError} (hr : s.runState = .running)
    (h : fetchInstr s = .error e) : step s = .next (s.raise e) := by
  simp [step, stepWith, hr, h]

/-- A next state comes only from RUNNING, by the fault entry of a failed fetch or by a handler. -/
theorem step_next_cases {s t : State} (h : step s = .next t) :
    s.runState = .running ∧
      ((∃ e, fetchInstr s = .error e ∧ t = s.raise e) ∨ (∃ i, fetchInstr s = .ok i ∧ exec i s = .next t)) := by
  cases hr : s.runState with
  | running =>
    refine ⟨rfl, ?_⟩
    cases hf : fetchInstr s with
    | ok i => exact .inr ⟨i, rfl, by rw [← step_of_fetch_ok hr hf]; exact h⟩
    | error e =>
      rw [step_of_fetch_error hr hf] at h
      cases h
      exact .inl ⟨e, rfl, rfl⟩
  | halted => simp [step, stepWith, hr] at h
  | faulted => simp [step, stepWith, hr] at h

end Sys2Proof.Machine
end

