-- ==== Sys2Proof/Laws/Effects.lean ====
section
/-! SUPPORT. What a step can do, said once: `step s = .next t` exactly when RUNNING and `StepEffect s t`. Every claim
about steps is a case analysis of it. -/

namespace Sys2Proof.Machine

/-- The bytes a step may fetch: the opcode, `op1`, `op2`. -/
abbrev opcAt (s : State) : Byte := Memory.byteAt s.mem s.pc.toNat
abbrev op1At (s : State) : Byte := Memory.byteAt s.mem (s.pc.toNat + 1)
abbrev op2At (s : State) : Byte := Memory.byteAt s.mem (s.pc.toNat + 2)

/-- One case per way a step can go: the faults in their order (60_exceptions.md R137), then the seven instructions. -/
inductive StepEffect (s : State) : State → Prop
  | opcodeFetchFault (hpc : 256 ≤ s.pc.toNat) : StepEffect s (s.raise (.address s.pc))
  | unknownOpcode (hpc : s.pc.toNat < 256)
      (hop : opcAt s ∉ [0x01#8, 0x82#8, 0x47#8, 0xA7#8, 0x54#8, 0x55#8, 0x56#8]) :
      StepEffect s (s.raise (.unknownOpcode (opcAt s)))
  | op1FetchFault (hpc : s.pc.toNat = 255)
      (hop : opcAt s ∈ [0x82#8, 0x47#8, 0xA7#8, 0x54#8, 0x55#8, 0x56#8]) : StepEffect s (s.raise (.address 256#9))
  | op2FetchFault (hpc : s.pc.toNat = 254) (hop : opcAt s ∈ [0x82#8, 0xA7#8]) :
      StepEffect s (s.raise (.address 256#9))
  | op1IndexFault2 (hpc : s.pc.toNat < 254) (hop : opcAt s ∈ [0x82#8, 0xA7#8]) (hi : 8 ≤ (op1At s).toNat) :
      StepEffect s (s.raise (.registerIndex (op1At s)))
  | op1IndexFault1 (hpc : s.pc.toNat < 255)
      (hop : opcAt s ∈ [0x47#8, 0x54#8] ∨ (opcAt s = 0x55#8 ∧ flagE s.fl = true) ∨
        (opcAt s = 0x56#8 ∧ flagE s.fl = false)) (hi : 8 ≤ (op1At s).toNat) :
      StepEffect s (s.raise (.registerIndex (op1At s)))
  | op2IndexFault (hpc : s.pc.toNat < 254) (hop : opcAt s = 0xA7#8) (h1 : (op1At s).toNat < 8)
      (hi : 8 ≤ (op2At s).toNat) : StepEffect s (s.raise (.registerIndex (op2At s)))
  | halts (hpc : s.pc.toNat < 256) (hop : opcAt s = 0x01#8) : StepEffect s ((s.setPc 0#9).setRunState .halted)
  | loads (hpc : s.pc.toNat < 254) (hop : opcAt s = 0x82#8) (h : (op1At s).toNat < 8) :
      StepEffect s ((s.setRegs (s.regs.set (op1At s).toNat (op2At s) h)).setPc (s.pc + 3#9))
  | prints (hpc : s.pc.toNat < 255) (hop : opcAt s = 0x47#8) (h : (op1At s).toNat < 8) :
      StepEffect s ((s.setOut (s.out ++ [s.reg ⟨(op1At s).toNat, h⟩])).setPc (s.pc + 2#9))
  | compares (hpc : s.pc.toNat < 254) (hop : opcAt s = 0xA7#8) (h1 : (op1At s).toNat < 8)
      (h2 : (op2At s).toNat < 8) :
      StepEffect s ((s.setFl (compareFlags (s.reg ⟨(op1At s).toNat, h1⟩) (s.reg ⟨(op2At s).toNat, h2⟩))).setPc
        (s.pc + 3#9))
  | jumps (hpc : s.pc.toNat < 255)
      (hop : opcAt s = 0x54#8 ∨ (opcAt s = 0x55#8 ∧ flagE s.fl = true) ∨ (opcAt s = 0x56#8 ∧ flagE s.fl = false))
      (h : (op1At s).toNat < 8) : StepEffect s (s.setPc (zext9 (s.reg ⟨(op1At s).toNat, h⟩)))
  | fallsThrough (hpc : s.pc.toNat < 255)
      (hop : (opcAt s = 0x55#8 ∧ flagE s.fl = false) ∨ (opcAt s = 0x56#8 ∧ flagE s.fl = true)) :
      StepEffect s (s.setPc (s.pc + 2#9))

/-- The jump handler, as an effect: shared by the three jumps. -/
theorem jump_effect {s t : State} (hpc : s.pc.toNat < 255)
    (hop : opcAt s = 0x54#8 ∨ (opcAt s = 0x55#8 ∧ flagE s.fl = true) ∨ (opcAt s = 0x56#8 ∧ flagE s.fl = false))
    (h : execJump (op1At s) s = .next t) : StepEffect s t := by
  rcases execJump_cases (op1At s) s with ⟨hi, e⟩ | ⟨hi, e⟩ <;> rw [e] at h <;> cases h
  · exact .jumps hpc hop hi
  · refine .op1IndexFault1 hpc ?_ hi
    rcases hop with h | h
    · exact .inl (by simp [h])
    · exact .inr h

/-- A handler run on its fetched operands does one of the listed things. -/
theorem exec_effect {s t : State} {i : Instr} (hf : fetchInstr s = .ok i) (h : exec i s = .next t) :
    StepEffect s t := by
  rcases fetchInstr_cases s with ⟨-, e⟩ | ⟨hpc, ⟨-, e⟩ | ⟨j, hd, e⟩ | ⟨mk, hd, ⟨-, e⟩ | ⟨hlt, e⟩⟩ |
      ⟨mk, hd, ⟨-, e⟩ | ⟨hlt, e⟩⟩⟩ <;> rw [e] at hf <;> cases hf
  · obtain ⟨ho, rfl⟩ := dispatch_f0 hd
    cases h
    exact .halts hpc ho
  · obtain ⟨ho, rfl⟩ | ⟨ho, rfl⟩ | ⟨ho, rfl⟩ | ⟨ho, rfl⟩ := dispatch_f1 hd
    · rcases execPrintRegister_cases (op1At s) s with ⟨hi, e⟩ | ⟨hi, e⟩ <;> rw [exec, e] at h <;> cases h
      · exact .prints hlt ho hi
      · exact .op1IndexFault1 hlt (.inl (by simp [opcAt, ho])) hi
    · exact jump_effect hlt (.inl ho) h
    · rw [exec, execJumpIfEqual_eq] at h
      split_ifs at h with hE
      · exact jump_effect hlt (.inr (.inl ⟨ho, hE⟩)) h
      · cases h
        exact .fallsThrough hlt (.inl ⟨ho, by simpa using hE⟩)
    · rw [exec, execJumpIfNotEqual_eq] at h
      split_ifs at h with hE
      · cases h
        exact .fallsThrough hlt (.inr ⟨ho, hE⟩)
      · exact jump_effect hlt (.inr (.inr ⟨ho, by simpa using hE⟩)) h
  · obtain ⟨ho, rfl⟩ | ⟨ho, rfl⟩ := dispatch_f2 hd
    · rcases execLoadImmediate_cases (op1At s) (op2At s) s with ⟨hi, e⟩ | ⟨hi, e⟩ <;> rw [exec, e] at h <;> cases h
      · exact .loads hlt ho hi
      · exact .op1IndexFault2 hlt (by simp [opcAt, ho]) hi
    · rcases execCompare_cases (op1At s) (op2At s) s with ⟨h1, h2, e⟩ | ⟨hi, e⟩ | ⟨h1, hi, e⟩ <;>
        rw [exec, e] at h <;> cases h
      · exact .compares hlt ho h1 h2
      · exact .op1IndexFault2 hlt (by simp [opcAt, ho]) hi
      · exact .op2IndexFault hlt ho h1 hi

/-- A failed fetch is one of the listed faults. -/
theorem fetch_error_effect {s : State} {e : CoreError} (hf : fetchInstr s = .error e) : StepEffect s (s.raise e) := by
  rcases fetchInstr_cases s with ⟨hpc, h⟩ | ⟨hpc, ⟨hd, h⟩ | ⟨j, hd, h⟩ | ⟨mk, hd, ⟨h255, h⟩ | ⟨-, h⟩⟩ |
      ⟨mk, hd, ⟨h254, h⟩ | ⟨-, h⟩⟩⟩ <;> rw [h] at hf <;> cases hf
  · exact .opcodeFetchFault hpc
  · exact .unknownOpcode hpc (dispatch_none hd)
  · refine .op1FetchFault h255 ?_
    rcases dispatch_f1 hd with ⟨ho, -⟩ | ⟨ho, -⟩ | ⟨ho, -⟩ | ⟨ho, -⟩ <;> rw [opcAt, ho] <;> decide
  · rcases Nat.lt_or_ge s.pc.toNat 255 with h | h
    · refine .op2FetchFault (by omega) ?_
      rcases dispatch_f2 hd with ⟨ho, -⟩ | ⟨ho, -⟩ <;> rw [opcAt, ho] <;> decide
    · refine .op1FetchFault (by omega) ?_
      rcases dispatch_f2 hd with ⟨ho, -⟩ | ⟨ho, -⟩ <;> rw [opcAt, ho] <;> decide

/-- The inversion lemma of the step. -/
theorem step_effect {s t : State} (h : step s = .next t) : StepEffect s t := by
  rcases step_next_cases h with ⟨-, ⟨e, hf, rfl⟩ | ⟨i, hf, he⟩⟩
  · exact fetch_error_effect hf
  · exact exec_effect hf he

/-- Every handler ends in a next state. -/
theorem exec_next (i : Instr) (s : State) : ∃ t, exec i s = .next t := by
  cases i with
  | halt => exact ⟨_, rfl⟩
  | loadImmediate op1 op2 => exact finish_next _ _
  | printRegister op1 => exact finish_next _ _
  | compare op1 op2 => exact finish_next _ _
  | jump op1 => exact finish_next _ _
  | jumpIfEqual op1 => exact finish_next _ _
  | jumpIfNotEqual op1 => exact finish_next _ _

end Sys2Proof.Machine
end

