-- ==== Sys2Proof/Laws/PerInstr.lean ====
section
/-! SUPPORT. Per-instruction families: one lemma per constructor of `Instr`. -/

namespace Sys2Proof.Laws.OpcodeByte

/-- The two high bits of the opcode byte count the operand bytes that follow it, and the opcode byte alone gives the
length (30_encoding.md R52, R58). -/
def Statement (i : Instr) : Prop :=
  (encode i).length = ((encode i).headD 0#8).toNat / 64 + 1 ∧
    lengthFromOpcode ((encode i).headD 0#8) = some (encode i).length

theorem halt : Statement .halt := by
  simp [Statement, encode, lengthFromOpcode, dispatch]
theorem loadImmediate (op1 op2 : Byte) : Statement (.loadImmediate op1 op2) := by
  simp [Statement, encode, lengthFromOpcode, dispatch]
theorem printRegister (op1 : Byte) : Statement (.printRegister op1) := by
  simp [Statement, encode, lengthFromOpcode, dispatch]
theorem compare (op1 op2 : Byte) : Statement (.compare op1 op2) := by
  simp [Statement, encode, lengthFromOpcode, dispatch]
theorem jump (op1 : Byte) : Statement (.jump op1) := by
  simp [Statement, encode, lengthFromOpcode, dispatch]
theorem jumpIfEqual (op1 : Byte) : Statement (.jumpIfEqual op1) := by
  simp [Statement, encode, lengthFromOpcode, dispatch]
theorem jumpIfNotEqual (op1 : Byte) : Statement (.jumpIfNotEqual op1) := by
  simp [Statement, encode, lengthFromOpcode, dispatch]

end Sys2Proof.Laws.OpcodeByte
end

