-- ==== Sys2Proof/Laws/Run.lean ====
section
/-! SUPPORT. Runs, and the fault entry in the words of Safety. -/

namespace Sys2Proof.Machine

theorem raise_eq_faultedAs (s : State) (e : CoreError) : s.raise e = faultedAs s e.cause e.info := rfl

theorem raises_raise (s : State) (e : CoreError) : Raises (.next (s.raise e)) s e :=
  ⟨s.raise e, rfl, rfl, rfl, rfl, rfl, fun _ => rfl, rfl, rfl, rfl, fun _ => rfl⟩

theorem step_halted {s : State} (h : s.runState = .halted) : step s = .fault .noStepHalted := by
  simp [step, stepWith, h]

theorem step_faulted {s : State} (h : s.runState = .faulted) : step s = .fault .noStepFaulted := by
  simp [step, stepWith, h]

@[simp] theorem hostReport_error (e : LoadError) :
    hostReport (.error e) = some { status := Config.exitCodeLoadFailed, message := some .loadFailed } := rfl
@[simp] theorem hostReport_ok (s : State) :
    hostReport (.ok s) = (exitStatus s).map (fun status => { status := status, message := hostMessage s }) := rfl

theorem processEnd_of_launch_error {image : List Byte} {e : LoadError} (h : launch image = .error e) (n : Nat) :
    processEnd image n = hostReport (.error e) := by
  simp [processEnd, h, Except.map]

theorem processEnd_of_launch_ok {image : List Byte} {s : State} (h : launch image = .ok s) (n : Nat) :
    processEnd image n = hostReport (.ok (run s n)) := by
  simp [processEnd, h, Except.map]

theorem exitStatus_running {s : State} (h : s.runState = .running) : exitStatus s = none := by
  simp [exitStatus, h]

/-- All an end state can give the host: status and message (R172). -/
theorem exitStatus_of_ended {s : State} (h : Ended s) :
    (s.runState = .halted ∧ exitStatus s = some 0 ∧ hostMessage s = none) ∨
    (s.runState = .faulted ∧ s.faultCause = .unknownOpcode ∧ exitStatus s = some 1 ∧
      hostMessage s = some (.unrecognizedOpcode (s.faultInfo.setWidth 8))) ∨
    (s.runState = .faulted ∧ s.faultCause ≠ .unknownOpcode ∧ exitStatus s = some Config.exitCodeOther ∧
      hostMessage s = none) := by
  rcases h with h | h
  · exact .inl ⟨h, by simp [exitStatus, h], by simp [hostMessage, h]⟩
  · by_cases hc : s.faultCause = .unknownOpcode
    · exact .inr (.inl ⟨h, hc, by simp [exitStatus, h, hc], by simp [hostMessage, h, hc]⟩)
    · exact .inr (.inr ⟨h, hc, by simp [exitStatus, h, hc], by simp [hostMessage, hc]⟩)

/-- A digit's character code. -/
theorem digitChar_toNat (n : Nat) : (digitChar n).toNat = 48 + n % 10 := by
  have h : n % 10 < 10 := Nat.mod_lt _ (by decide)
  unfold digitChar
  generalize n % 10 = d at h
  revert d
  decide

@[simp] theorem run_zero (s : State) : run s 0 = s := rfl

theorem run_succ_of_next {s t : State} {n : Nat} (h : step s = .next t) : run s (n + 1) = run t n := by
  simp [run, h]

theorem run_of_ended {s : State} (h : Ended s) (n : Nat) : run s n = s := by
  cases n with
  | zero => rfl
  | succ n => rcases h with h | h <;> simp [run, step_halted, step_faulted, h]

/-- What every step keeps holds all along a run. -/
theorem run_keeps {P : State → Prop} (hstep : ∀ s t, P s → step s = .next t → P t) {s : State} (h : P s) (n : Nat) :
    P (run s n) := by
  induction n generalizing s with
  | zero => exact h
  | succ n ih =>
    cases hs : step s with
    | next t => rw [run_succ_of_next hs]; exact ih (hstep s t h hs)
    | fault r => simpa [run, hs] using h
    | refused r => simpa [run, hs] using h

end Sys2Proof.Machine
end

