-- ==== Sys2Proof/Tests/Slice0.lean ====
section
/-! SUPPORT. The model's own tests. Expected values come from spec/95_test_vectors.md or the tables cited; a witness theorem
shows a state that meets a statement's hypotheses. -/

namespace Sys2Proof.Tests

open Sys2Proof.Machine

/-- A RUNNING state with these bytes from `pc`, all else as after reset. -/
def base (pc : Addr) (bytes : List Byte) : State :=
  { State.reset with pc := pc, mem := Memory.storeList [] pc.toNat bytes }

/-- The next state, if there is one. -/
def after : Host.Outcome State Fault Refusal → Option State
  | .next t => some t
  | .fault _ => none
  | .refused _ => none

/-- The parts of a fault a test reads: STATE, FAULT_CAUSE, FAULT_INFO, FAULT_PC, `pc`. -/
def faultParts (s : State) : RunState × FaultCause × BitVec 9 × Addr × Addr :=
  (s.runState, s.faultCause, s.faultInfo, s.faultPc, s.pc)

/-! ### WellFormed: one ill-formed term for each check (30_encoding.md R53; 20_memory.md R34) -/

theorem test_wf_loadImmediate_refuses_8 : (Instr.loadImmediate 8 0).wellFormed = false := by decide
theorem test_wf_printRegister_refuses_255 : (Instr.printRegister 255).wellFormed = false := by decide
theorem test_wf_compare_refuses_op1 : (Instr.compare 8 0).wellFormed = false := by decide
theorem test_wf_compare_refuses_op2 : (Instr.compare 7 9).wellFormed = false := by decide
theorem test_wf_jump_refuses_8 : (Instr.jump 8).wellFormed = false := by decide
theorem test_wf_jumpIfEqual_refuses_9 : (Instr.jumpIfEqual 9).wellFormed = false := by decide
theorem test_wf_jumpIfNotEqual_refuses_128 : (Instr.jumpIfNotEqual 128).wellFormed = false := by decide
theorem test_wf_accepts_7_and_any_immediate : (Instr.loadImmediate 7 255).wellFormed = true := by decide
theorem test_image_of_257_does_not_fit : imageFits (List.replicate 257 0) = false := by
  rw [imageFits, List.length_replicate]; decide

/-! ### Decoding: one word a constructor, bits from the table of 30_encoding.md R54 -/

theorem test_decode_halt : decode [0b00000001#8, 0xFF] = .ok (.halt, [0xFF]) := by decide
theorem test_decode_loadImmediate :
    decode [0b10000010#8, 0b00000101#8, 0b00000001#8] = .ok (.loadImmediate 5 1, []) := by decide
theorem test_decode_printRegister : decode [0b01000111#8, 0b00001000#8] = .ok (.printRegister 8, []) := by decide
theorem test_decode_compare : decode [0b10100111#8, 0b00000010#8, 0b00000100#8] = .ok (.compare 2 4, []) := by decide
theorem test_decode_jump : decode [0b01010100#8, 0b00000110#8, 0x01] = .ok (.jump 6, [0x01]) := by decide
theorem test_decode_jumpIfEqual : decode [0b01010101#8, 0b10000000#8] = .ok (.jumpIfEqual 128, []) := by decide
theorem test_decode_jumpIfNotEqual : decode [0b01010110#8, 0b00000011#8] = .ok (.jumpIfNotEqual 3, []) := by decide

/-- 95_test_vectors.md 2.1: the neighbours of the seven opcodes and 0xA0, 0xA1, 0xA2, 0xC7 are unknown. -/
theorem test_decode_unknown_neighbours :
    [0x00#8, 0x02#8, 0x03#8, 0x46#8, 0x48#8, 0x53#8, 0x57#8, 0x81#8, 0x83#8, 0xA6#8, 0xA8#8, 0xA0#8, 0xA1#8, 0xA2#8,
      0xC7#8, 0xFF#8].all (fun b => decide (lengthFromOpcode b = none)) = true := by decide

/-- The opcode table's numbering: `op1` is bits 15 to 8, `op2` bits 23 to 16; missing operand bits are 0. -/
theorem test_table_word : decodeTableWord 24 0xC80382 = some (.loadImmediate 3 200) := by decide
theorem test_table_word_opcode_only : decodeTableWord 8 0x54 = some (.jump 0) := by decide

/-! ### The instructions (95_test_vectors.md 2.3 to 2.7) -/

theorem test_halt_at_255 :
    (after (step { base 255 [0x01] with fl := 0x02 })).map (fun t => (t.pc, t.runState, t.fl)) =
      some (0, .halted, 0x02) := by decide
theorem test_halt_keeps_registers :
    (after (step { base 9 [0x01] with regs := #v[0, 0, 0, 7, 0, 0, 0, 0] })).map (fun t => (t.regs, t.out)) =
      some (#v[0, 0, 0, 7, 0, 0, 0, 0], []) := by decide

theorem test_loadImmediate_at_253 :
    (after (step (base 253 [0x82, 0x01, 0x09]))).map (fun t => (t.regs, t.pc)) =
      some (#v[0, 9, 0, 0, 0, 0, 0, 0], 256) := by decide
/-- Memory faults win over index faults (60_exceptions.md R137). -/
theorem test_loadImmediate_at_254 :
    (after (step (base 254 [0x82, 0x09]))).map faultParts = some (.faulted, .address, 256, 254, 254) := by decide

theorem test_printRegister_appends :
    (after (step { base 3 [0x47, 0x01] with regs := #v[0, 7, 0, 0, 0, 0, 0, 0], out := [5] })).map
      (fun t => (t.out, t.pc)) = some ([5, 7], 5) := by decide
theorem test_printRegister_index_8 :
    (after (step (base 0 [0x47, 0x08]))).map (fun t => (faultParts t, t.out)) =
      some ((.faulted, .registerIndex, 8, 0, 0), []) := by decide

/-- Unsigned: 128 against 127 is G (45_compare.md R116). -/
theorem test_compare_is_unsigned :
    (after (step { base 0 [0xA7, 0x00, 0x01] with regs := #v[128, 127, 0, 0, 0, 0, 0, 0], fl := 0x01 })).map
      (fun t => (t.fl, t.pc)) = some (0x02, 3) := by decide
/-- Both indices bad: `op1` is reported and `FL` is kept. -/
theorem test_compare_op1_first :
    (after (step { base 0 [0xA7, 0x09, 0x0A] with fl := 0x02 })).map (fun t => (faultParts t, t.fl)) =
      some ((.faulted, .registerIndex, 9, 0, 0), 0x02) := by decide

theorem test_jump_does_not_advance :
    (after (step { base 22 [0x54, 0x02] with regs := #v[0, 0, 12, 0, 0, 0, 0, 0] })).map (fun t => t.pc) =
      some 12 := by decide
theorem test_jump_at_255 :
    (after (step (base 255 [0x54]))).map faultParts = some (.faulted, .address, 256, 255, 255) := by decide

theorem test_jumpIfEqual_taken :
    (after (step { base 20 [0x55, 0x02] with regs := #v[0, 0, 40, 0, 0, 0, 0, 0], fl := 0x01 })).map
      (fun t => t.pc) = some 40 := by decide
/-- Untaken, an index of 9 is no fault (46_jumps.md R124). -/
theorem test_jumpIfEqual_untaken_bad_index :
    (after (step { base 254 [0x55, 0x09] with fl := 0x04 })).map (fun t => (t.pc, t.runState)) =
      some (256, .running) := by decide

/-- Before the first COMPARE it is taken: the condition is E = 0, not L or G (46_jumps.md R122). -/
theorem test_jumpIfNotEqual_taken_without_flags :
    (after (step { base 0 [0x56, 0x01] with regs := #v[0, 7, 0, 0, 0, 0, 0, 0] })).map (fun t => t.pc) =
      some 7 := by decide
theorem test_jumpIfNotEqual_taken_bad_index :
    (after (step (base 0 [0x56, 0x09]))).map faultParts = some (.faulted, .registerIndex, 9, 0, 0) := by decide

/-! ### Faults of the fetch, the ALU block (2.2), load and the host's side -/

theorem test_unknown_opcode_at_255 :
    (after (step (base 255 [0x99]))).map faultParts = some (.faulted, .unknownOpcode, 0x99, 255, 255) := by decide
theorem test_fetch_at_256 :
    (after (step (base 256 []))).map faultParts = some (.faulted, .address, 256, 256, 256) := by decide
/-- 95_test_vectors.md 2.8: the empty image. -/
theorem test_reset_step_is_unknown_opcode_0 :
    (after (step State.reset)).map faultParts = some (.faulted, .unknownOpcode, 0, 0, 0) := by decide
theorem test_no_step_after_halt : after (step { State.reset with runState := .halted }) = none := by decide

/-- A register file for the ALU vectors. -/
def aluState (a b : Byte) : State := { State.reset with regs := #v[a, b, 0, 0, 0, 0, 0, 0], fl := 0x04 }

theorem test_alu_add_wraps :
    (after (invokeAlu 0x0 0 1 (aluState 200 100))).map (fun t => (t.regs[0], t.fl)) = some (44, 0x04) := by decide
theorem test_alu_sub_wraps :
    (after (invokeAlu 0x1 0 1 (aluState 5 10))).map (fun t => (t.regs[0], t.fl)) = some (251, 0x04) := by decide
theorem test_alu_mul_keeps_the_low_byte :
    (after (invokeAlu 0x2 0 1 (aluState 200 3))).map (fun t => (t.regs[0], t.fl)) = some (88, 0x04) := by decide
theorem test_alu_cmp : (after (invokeAlu 0x7 0 1 (aluState 3 9))).map (fun t => t.fl) = some 0x04 := by decide
theorem test_alu_unsupported_tag :
    (after (invokeAlu 0xF 200 1 (aluState 3 9))).map faultParts = some (.faulted, .unsupportedOperation, 15, 0, 0) := by
  decide

/-- What memory a load leaves, or none. -/
def loadedMem (image : List Byte) : Option Memory :=
  match launch image with
  | .ok s => some s.mem
  | .error _ => none

theorem test_load_lists_only_nonzero : loadedMem [0x82, 0x00, 0x05] = some [(0, 0x82), (2, 0x05)] := by decide
theorem test_store_of_zero_removes : Memory.store [(0, 0x82), (2, 0x05)] 2 0 = [(0, 0x82)] := by decide
theorem test_printed_text : hostOutput { State.reset with out := [0, 7, 255] } = ['0', '\n', '7', '\n', '2', '5', '5', '\n'] := by
  decide
theorem test_mem_addr_port : memAddrPort (base 252 [0xA7, 0x00, 0x01]) = [252, 253, 254] := by decide
theorem test_fetch_word_runs : after (step (State.reset.withFetchWord 24 0x050082)) =
    some { State.reset with regs := #v[5, 0, 0, 0, 0, 0, 0, 0], pc := 3, mem := [(0, 0x82), (2, 0x05)] } := by decide

/-! ### Witnesses: states that meet the statements' hypotheses, at the edges of their ranges -/

/-- A RUNNING state with clear fault fields meets the invariant when its other fields do. -/
theorem inv_of_running {s : State} (hm : Memory.wf s.mem = true) (hp : s.pc.toNat ≤ 256)
    (hf : s.fl = 0x00#8 ∨ s.fl = 0x01#8 ∨ s.fl = 0x02#8 ∨ s.fl = 0x04#8) (hr : s.runState = .running)
    (hc : FaultFieldsClear s) : Inv s :=
  ⟨hm, hp, hf, by simp [hr], fun _ => hc, by simp [hr]⟩

theorem witness_DispatchComparesTheWholeByte :
    (0xC7#8 : Byte) ∉ [0x01#8, 0x82#8, 0x47#8, 0xA7#8, 0x54#8, 0x55#8, 0x56#8] ∧ (base 255 [0xC7]).pc.toNat < 256 ∧
      Memory.byteAt (base 255 [0xC7]).mem (base 255 [0xC7]).pc.toNat = 0xC7#8 := by decide

theorem witness_StepRunsDecodedInstruction :
    (base 253 [0x82, 0x01, 0x09]).runState = .running ∧
      decode (codeBytes (base 253 [0x82, 0x01, 0x09])) = .ok (.loadImmediate 1 9, []) := by decide

theorem witness_StepFaultsWhereNothingDecodes_unknown :
    (base 255 [0xA0]).runState = .running ∧ decode (codeBytes (base 255 [0xA0])) = .error (.unknownOpcode 0xA0) := by
  decide
theorem witness_StepFaultsWhereNothingDecodes_missing :
    decode (codeBytes (base 256 [])) = .error (.missingByte 0) ∧ (base 256 []).pc.toNat ≤ 256 ∧
      decode (codeBytes (base 255 [0x56])) = .error (.missingByte 1) ∧
      decode (codeBytes (base 254 [0x82, 0x09])) = .error (.missingByte 2) := by decide

theorem witness_AStepExistsExactlyWhenRunning :
    State.reset.runState = .running ∧ ({ State.reset with runState := .halted } : State).runState = .halted ∧
      (faultedAs State.reset .address 256#9).runState = .faulted := by decide

theorem witness_PlacedWordIsRunNext :
    (base 253 []).runState = .running ∧ Memory.wf (base 253 []).mem = true ∧ (base 253 []).pc.toNat ≤ 253 ∧
      decodeTableWord 24 0x0901A7 = some (.compare 1 9) := by decide

theorem witness_RaiseWritesOnlyTheFaultFields :
    ∃ e₁ e₂ e₃ e₄ : CoreError, e₁ = .unknownOpcode 0xFF ∧ e₂ = .address 256 ∧ e₃ = .registerIndex 8 ∧
      e₄ = .unsupportedOperation 15 := ⟨_, _, _, _, rfl, rfl, rfl, rfl⟩

theorem witness_FaultingStepsArePrecise :
    ∃ t, step { base 0 [0x47, 0x08] with out := [1] } = .next t ∧ t.runState = .faulted := ⟨_, rfl, rfl⟩

theorem witness_FaultMatrixIsComplete_address :
    (base 256 []).pc.toNat ≤ 256 ∧ ∃ t, step (base 256 []) = .next t ∧ t.runState = .faulted := ⟨by decide, _, rfl, rfl⟩
theorem witness_FaultMatrixIsComplete_unknown :
    ∃ t, step (base 255 [0x57]) = .next t ∧ t.runState = .faulted ∧ t.faultCause = .unknownOpcode := ⟨_, rfl, rfl, rfl⟩
theorem witness_FaultMatrixIsComplete_op1 :
    ∃ t, step (base 254 [0x56, 0x08]) = .next t ∧ t.runState = .faulted ∧ t.faultCause = .registerIndex :=
  ⟨_, rfl, rfl, rfl⟩
theorem witness_FaultMatrixIsComplete_op2 :
    ∃ t, step (base 253 [0xA7, 0x07, 0x08]) = .next t ∧ t.runState = .faulted ∧ t.faultInfo = 8 := ⟨_, rfl, rfl, rfl⟩

theorem witness_EveryStepKeepsTheInvariant :
    Inv { base 255 [0x01] with fl := 0x04 } ∧ ∃ t, step { base 255 [0x01] with fl := 0x04 } = .next t :=
  ⟨inv_of_running (by decide) (by decide) (by decide) rfl ⟨rfl, rfl, rfl⟩, _, rfl⟩

theorem witness_EveryLaunchedRunMeetsTheInvariant : ∃ s, launch [0x82, 0x00, 0x05, 0x01] = .ok s := ⟨_, rfl⟩

/-- The operands of the completion statements: the lowest and the highest legal register. -/
theorem witness_legal_registers : (0#8 : Byte).toNat < 8 ∧ (7#8 : Byte).toNat < 8 := by decide

theorem witness_CompareCompletes :
    (aluState 5 5).reg 0 = (aluState 5 5).reg 1 ∧ ((aluState 127 128).reg 0).toNat < ((aluState 127 128).reg 1).toNat ∧
      ((aluState 255 0).reg 1).toNat < ((aluState 255 0).reg 0).toNat := by decide

theorem witness_conditional_jumps :
    flagE ({ State.reset with fl := 0x01 } : State).fl = true ∧
      flagE ({ State.reset with fl := 0x04 } : State).fl = false := by decide

theorem witness_WellFormedInstructionsDoNotFault :
    (Instr.compare 7 0).wellFormed = true ∧ State.reset.runState = .running ∧
      ∃ t, exec (.compare 7 0) State.reset = .next t := ⟨by decide, rfl, _, rfl⟩

theorem witness_HaltRule :
    (base 255 [0x01]).runState = .running ∧ (base 255 [0x01]).pc.toNat < 256 ∧
      Memory.byteAt (base 255 [0x01]).mem (base 255 [0x01]).pc.toNat = 0x01#8 ∧ (base 256 []).pc = 256#9 := by decide

theorem witness_LoadImmediateRule_end :
    (base 254 [0x82, 0x09]).runState = .running ∧ 254 ≤ (base 254 [0x82, 0x09]).pc.toNat ∧
      (base 254 [0x82, 0x09]).pc.toNat < 256 ∧
      Memory.byteAt (base 254 [0x82, 0x09]).mem (base 254 [0x82, 0x09]).pc.toNat = 0x82#8 := by decide
theorem witness_LoadImmediateRule_index :
    (base 253 [0x82, 0x08, 0x05]).pc.toNat < 254 ∧
      Memory.byteAt (base 253 [0x82, 0x08, 0x05]).mem (253 + 1) = 8 ∧ 8 ≤ (8#8 : Byte).toNat := by decide
theorem witness_LoadImmediateRule_loads :
    (base 253 [0x82, 0x07, 0x05]).pc.toNat = 253 ∧ Memory.byteAt (base 253 [0x82, 0x07, 0x05]).mem 253 = 0x82#8 ∧
      (Memory.byteAt (base 253 [0x82, 0x07, 0x05]).mem (253 + 1)).toNat < 8 := by decide

theorem witness_PrintRegisterFromMemory_end :
    (base 255 [0x47]).pc.toNat = 255 ∧ Memory.byteAt (base 255 [0x47]).mem 255 = 0x47#8 := by decide
theorem witness_PrintRegisterFromMemory_index :
    Memory.byteAt (base 254 [0x47, 0x08]).mem 254 = 0x47#8 ∧ 8 ≤ (Memory.byteAt (base 254 [0x47, 0x08]).mem 255).toNat := by
  decide
theorem witness_PrintRegisterFromMemory_prints :
    (base 254 [0x47, 0x07]).pc.toNat = 254 ∧ Memory.byteAt (base 254 [0x47, 0x07]).mem 254 = 0x47#8 ∧
      (Memory.byteAt (base 254 [0x47, 0x07]).mem 255).toNat < 8 := by decide

theorem witness_CompareFromMemory_end :
    254 ≤ (base 254 [0xA7]).pc.toNat ∧ Memory.byteAt (base 254 [0xA7]).mem 254 = 0xA7#8 := by decide
theorem witness_CompareFromMemory_indices :
    8 ≤ (Memory.byteAt (base 253 [0xA7, 0x08, 0x00]).mem 254).toNat ∧
      (Memory.byteAt (base 253 [0xA7, 0x07, 0x08]).mem 254).toNat < 8 ∧
      8 ≤ (Memory.byteAt (base 253 [0xA7, 0x07, 0x08]).mem 255).toNat := by decide
theorem witness_CompareFromMemory_compares :
    (base 253 [0xA7, 0x07, 0x00]).pc.toNat < 254 ∧ Memory.byteAt (base 253 [0xA7, 0x07, 0x00]).mem 253 = 0xA7#8 ∧
      (Memory.byteAt (base 253 [0xA7, 0x07, 0x00]).mem 254).toNat < 8 ∧
      (Memory.byteAt (base 253 [0xA7, 0x07, 0x00]).mem 255).toNat < 8 := by decide

theorem witness_JumpFromMemory_end :
    (base 255 [0x54]).pc.toNat = 255 ∧ Memory.byteAt (base 255 [0x54]).mem 255 = 0x54#8 := by decide
theorem witness_JumpFromMemory_index :
    Memory.byteAt (base 254 [0x54, 0x08]).mem 254 = 0x54#8 ∧ 8 ≤ (Memory.byteAt (base 254 [0x54, 0x08]).mem 255).toNat := by
  decide

/-- A jump at 0 through register 7, which holds 0: it jumps to itself. -/
def selfJump : State := base 0 [0x54, 0x07]

theorem witness_JumpFromMemory_jumps :
    selfJump.pc.toNat < 255 ∧ Memory.byteAt selfJump.mem 0 = 0x54#8 ∧ (Memory.byteAt selfJump.mem 1).toNat < 8 ∧
      (selfJump.reg 7).toNat = selfJump.pc.toNat := by decide

theorem witness_SelfJumpRunsForEver :
    selfJump.runState = .running ∧ selfJump.pc.toNat < 255 ∧ Memory.byteAt selfJump.mem selfJump.pc.toNat = 0x54#8 ∧
      (Memory.byteAt selfJump.mem (selfJump.pc.toNat + 1)).toNat = (7 : Fin 8).val ∧
      (selfJump.reg 7).toNat = selfJump.pc.toNat := by decide

theorem witness_ConditionalJumpsFromMemory_end :
    (base 255 [0x55]).pc.toNat = 255 ∧ Memory.byteAt (base 255 [0x55]).mem 255 = (if true then 0x55#8 else 0x56#8) ∧
      Memory.byteAt (base 255 [0x56]).mem 255 = (if false then 0x55#8 else 0x56#8) := by decide
theorem witness_ConditionalJumpsFromMemory_untaken :
    (base 254 [0x55, 0x09]).pc.toNat = 254 ∧ Memory.byteAt (base 254 [0x55, 0x09]).mem 254 = 0x55#8 ∧
      flagE (base 254 [0x55, 0x09]).fl ≠ true := by decide
theorem witness_ConditionalJumpsFromMemory_taken :
    flagE (base 254 [0x56, 0x08]).fl = false ∧ 8 ≤ (Memory.byteAt (base 254 [0x56, 0x08]).mem 255).toNat ∧
      (Memory.byteAt (base 254 [0x56, 0x07]).mem 255).toNat < 8 := by decide

theorem witness_RegistersKeepTheirValues_step :
    ∃ t, step (base 253 [0x82, 0x07, 0x05]) = .next t ∧ t.reg 7 ≠ (base 253 [0x82, 0x07, 0x05]).reg 7 :=
  ⟨_, rfl, by decide⟩
theorem witness_RegistersKeepTheirValues_alu :
    (∃ t, compute 0x2 0 1 (aluState 200 3) = .ok t ∧ t.reg 0 ≠ (aluState 200 3).reg 0) ∧
      ∃ t, writeReg State.reset 7 1 = .ok t := ⟨⟨_, rfl, by decide⟩, _, rfl⟩

theorem witness_FlagWritersAndReaders_writer :
    ∃ t, step (base 253 [0xA7, 0x07, 0x00]) = .next t ∧ t.fl ≠ (base 253 [0xA7, 0x07, 0x00]).fl ∧
      t.runState ≠ .faulted ∧ Memory.byteAt (base 253 [0xA7, 0x07, 0x00]).mem 253 = 0xA7#8 := ⟨_, rfl, by decide⟩
theorem witness_FlagWritersAndReaders_reader :
    (∃ t, step { base 0 [0x55, 0x00] with fl := 0x02 } = .next t) ∧ flagE 0x04#8 = flagE 0x02#8 ∧
      (0x2#4 : BitVec 4) ∈ [0x0#4, 0x1#4, 0x2#4] ∧ ∃ t, compute 0x2 0 1 (aluState 200 3) = .ok t :=
  ⟨⟨_, rfl⟩, by decide, by decide, _, rfl⟩

theorem witness_OutputIsOnlyAppendedTo :
    ∃ t, step (base 254 [0x47, 0x07]) = .next t ∧ t.out ≠ (base 254 [0x47, 0x07]).out := ⟨_, rfl, by decide⟩
theorem witness_OutputPortIsValidOnlyForAPrint :
    ∃ t, step (base 254 [0x47, 0x07]) = .next t ∧ outPort (base 254 [0x47, 0x07]) t = some 0 := ⟨_, rfl, by decide⟩

theorem witness_HandlersOwnThePc_completes :
    ∃ t, step (base 253 [0xA7, 0x07, 0x00]) = .next t ∧ t.runState ≠ .faulted := ⟨_, rfl, by decide⟩
theorem witness_HandlersOwnThePc_branches :
    (∃ t, step (base 254 [0x55, 0x07]) = .next t ∧ t.pc = 256) ∧
      (∃ t, step (base 254 [0x56, 0x07]) = .next t ∧ t.pc = 0) ∧
      (∃ t, step { base 254 [0x56, 0x07] with fl := 0x01 } = .next t ∧ t.pc = 256) ∧
      ∃ t, step { base 254 [0x55, 0x07] with fl := 0x01 } = .next t ∧ t.pc = 0 :=
  ⟨⟨_, rfl, rfl⟩, ⟨_, rfl, rfl⟩, ⟨_, rfl, rfl⟩, _, rfl, rfl⟩

/-- The clauses of NoHazards: the lowest and the highest register, the two with each other and with themselves. -/
theorem witness_NoHazards_loaded :
    (0#8 : Byte).toNat < 8 ∧ (7#8 : Byte).toNat < 8 ∧ flagE (aluState 5 5).fl = false ∧
      flagE ({ aluState 5 5 with fl := 0x01 } : State).fl = true ∧
      (aluState 5 5).reg 0 = (aluState 5 5).reg 1 ∧ (aluState 5 5).reg 0 ≠ (aluState 5 5).reg 7 := by decide
/-- A taken conditional jump through a register that holds 255: the next fetch is at 255. -/
theorem witness_NoHazards_next_fetch :
    (aluState 255 0).runState = .running ∧ flagE (aluState 255 0).fl = false ∧
      ∃ t, exec (.jumpIfNotEqual 0) (aluState 255 0) = .next t ∧ (fetchAddrs t).head? = some 255 :=
  ⟨rfl, by decide, _, rfl, by decide⟩

theorem witness_EndsOfARun_halted :
    Inv (base 255 [0x01]) ∧ ∃ t, step (base 255 [0x01]) = .next t ∧ t.runState = .halted :=
  ⟨inv_of_running (by decide) (by decide) (by decide) rfl ⟨rfl, rfl, rfl⟩, _, rfl, rfl⟩
theorem witness_EndsOfARun_faulted : ∃ t, step (base 256 []) = .next t ∧ t.runState = .faulted := ⟨_, rfl, rfl⟩

/-- Two memories that differ past the one byte a HALT fetches. -/
theorem witness_StepDependsOnlyOnFetchedBytes :
    (∀ a ∈ fetchAddrs (base 7 [0x01]),
      Memory.byteAt [(7, 0x01), (8, 0xFF)] a.toNat = Memory.byteAt (base 7 [0x01]).mem a.toNat) ∧
      ∃ t, step (base 7 [0x01]) = .next t := ⟨by decide, _, rfl⟩

theorem witness_FetchesAscendFromThePc :
    (fetchAddrs (base 253 [0x82, 0x07, 0x05]))[2]? = some 255 ∧
      decode (codeBytes (base 253 [0x82, 0x07, 0x05])) = .ok (.loadImmediate 7 5, []) ∧
      lengthFromOpcode (Memory.byteAt (base 255 [0x99]).mem 255) = none := by decide

theorem witness_RunsComposeAndEndOnce :
    Ended ({ State.reset with runState := .halted } : State) ∧ ReachesHalt (base 255 [0x01]) := ⟨.inl rfl, 1, rfl⟩

theorem witness_MemReadIsBoundsChecked : 256 ≤ (256#9 : Addr).toNat ∧ (255#9 : Addr).toNat < 256 := by decide
theorem witness_MemWriteStoresOneByte :
    256 ≤ (256#9 : Addr).toNat ∧ (255#9 : Addr).toNat < 256 ∧ Memory.wf (base 3 [0x47]).mem = true ∧
      ∃ t, step (base 3 [0x47]) = .next t := ⟨by decide, by decide, by decide, _, rfl⟩
theorem witness_AWriteIsSeenByTheNextFetch :
    (base 255 [0x47]).runState = .running ∧ Memory.wf (base 255 [0x47]).mem = true ∧ (base 255 [0x47]).pc.toNat < 256 ∧
      (∃ t, memWrite (base 255 [0x47]) 255 0x01 = .ok t) ∧
      (0x00#8 : Byte) ∉ [0x01#8, 0x82#8, 0x47#8, 0xA7#8, 0x54#8, 0x55#8, 0x56#8] :=
  ⟨rfl, by decide, by decide, ⟨_, rfl⟩, by decide⟩
/-- A write at the last operand's address of an instruction that ends at 255, and one of an opcode that then does not fit:
the very next step uses the written bytes. -/
theorem witness_AWriteIsSeenByTheNextFetch_operand :
    (∃ t u, memWrite (base 253 [0x82, 0x07, 0x05]) 255 0x09 = .ok t ∧ step t = .next u ∧ u.reg 7 = 9) ∧
      ∃ t u, memWrite (base 255 [0x01]) 255 0x55 = .ok t ∧ step t = .next u ∧ u.faultCause = .address :=
  ⟨⟨_, _, rfl, rfl, by decide⟩, _, _, rfl, rfl, rfl⟩

theorem witness_LoadPlacesTheImage :
    256 < (List.replicate 257 (1#8 : Byte)).length ∧ (List.replicate 256 (1#8 : Byte)).length ≤ 256 ∧
      Memory.wf State.reset.mem = true ∧ ([0x82#8, 0x01#8] : List Byte)[1]? = some 0x01#8 ∧
      256 < 255 + ([0x82#8, 0x01#8] : List Byte).length :=
  ⟨by rw [List.length_replicate]; decide, by rw [List.length_replicate], rfl, rfl, by decide⟩
/-- A bulk load that just fits at the end of memory. -/
theorem witness_LoadPlacesTheImage_bulk :
    254 + ([0x82#8, 0x01#8] : List Byte).length ≤ 256 ∧ Memory.wf (base 3 [0x47]).mem = true ∧
      ([0x82#8, 0x01#8] : List Byte)[1]? = some 0x01#8 ∧
      ∃ t, bulkLoad (base 3 [0x47]) 254 [0x82, 0x01] = .ok t ∧ Memory.byteAt t.mem 255 = 0x01#8 :=
  ⟨by decide, by decide, rfl, _, rfl, by decide⟩
theorem witness_LaunchState : ([] : List Byte).length ≤ 256 ∧ (List.replicate 256 (1#8 : Byte)).length ≤ 256 :=
  ⟨by decide, by rw [List.length_replicate]⟩

theorem witness_AluArithmeticWraps :
    (0#8 : Byte).toNat < 8 ∧ (7#8 : Byte).toNat < 8 ∧
      (((0x0#4 : BitVec 4) = 0x0#4 ∧ 44 = (200 + 100) % 256) ∧ ((0x1#4 : BitVec 4) = 0x1#4 ∧ 251 = (5 + 256 - 10) % 256) ∧
        ((0x2#4 : BitVec 4) = 0x2#4 ∧ 88 = (200 * 3) % 256)) := by decide
theorem witness_AluFaultsInOrder :
    (0x3#4 : BitVec 4) ∉ [0x0#4, 0x1#4, 0x2#4, 0x7#4] ∧ (0x7#4 : BitVec 4) ∈ [0x0#4, 0x1#4, 0x2#4, 0x7#4] ∧
      8 ≤ (8#8 : Byte).toNat ∧ (7#8 : Byte).toNat < 8 := by decide

theorem witness_ExitStatusOfEachEnd :
    (faultedAs State.reset .unknownOpcode 0#9).faultCause = .unknownOpcode ∧
      (faultedAs State.reset .address 256#9).faultCause ≠ .unknownOpcode ∧
      (faultedAs State.reset .address 256#9).runState = .faulted := by decide
theorem witness_ProcessEndOfEveryImage_ends :
    (∃ s, launch [0x01] = .ok s ∧ (run s 0).runState = .running ∧ (run s 1).runState = .halted) ∧
      (∃ s, launch [] = .ok s ∧ (run s 1).runState = .faulted ∧ (run s 1).faultCause = .unknownOpcode) ∧
      ∃ s, launch [0x47, 0x08] = .ok s ∧ (run s 1).runState = .faulted ∧ (run s 1).faultCause ≠ .unknownOpcode :=
  ⟨⟨_, rfl, rfl, rfl⟩, ⟨_, rfl, rfl, rfl⟩, _, rfl, rfl, by decide⟩
theorem witness_ProcessEndOfEveryImage_sizes :
    256 < (List.replicate 257 (1#8 : Byte)).length ∧ (List.replicate 256 (1#8 : Byte)).length ≤ 256 ∧
      ∃ r, processEnd [0x01] 1 = some r :=
  ⟨by rw [List.length_replicate]; decide, by rw [List.length_replicate], _, rfl⟩
/-- 95_test_vectors.md 2.8: the empty image ends with exit status 1, naming byte 0. -/
theorem test_process_end_of_the_empty_image : processEnd [] 1 = some ⟨1, some (.unrecognizedOpcode 0x00)⟩ := by decide
/-- 95_test_vectors.md S7, its last step: the message names 0xFF. -/
theorem test_report_names_the_byte :
    (after (step (base 3 [0xFF]))).bind (fun t => hostReport (.ok t)) = some ⟨1, some (.unrecognizedOpcode 0xFF)⟩ := by
  decide

theorem witness_PrintedTextIsDecimal : 10 ≤ (10#8 : Byte).toNat ∧ (9#8 : Byte).toNat < 10 := by decide
theorem witness_StatusPortInNumbers :
    Inv { base 255 [0x01] with fl := 0x04 } ∧ ({ base 255 [0x01] with fl := 0x04 } : State).runState ≠ .faulted ∧
      ({ State.reset with faultCause := .programLoad } : State).faultCause = .programLoad :=
  ⟨inv_of_running (by decide) (by decide) (by decide) rfl ⟨rfl, rfl, rfl⟩, by decide, rfl⟩
/-- 95_test_vectors.md 2.8 in signals: `fault_info` and `fault_pc` of an unknown opcode are its byte and its address. -/
theorem test_status_port_of_a_fault :
    (after (step (base 255 [0x99]))).map statusPort = some ⟨2, 1, 0x099, 255⟩ := by decide

end Sys2Proof.Tests
end

section
/-! Memory accesses (20_memory.md R32, R33): the bounds of a read and of a write, and that no step writes memory. -/

namespace Sys2Proof.Machine

/-- Settles O41, by the two outcomes of a read. -/
theorem memReadIsBoundsChecked : Obligations.MemReadIsBoundsChecked := by
  unfold Obligations.MemReadIsBoundsChecked
  exact fun _ _ => ⟨memRead_error, memRead_ok⟩

theorem memWrite_ok {s : State} {a : Addr} {v : Byte} (h : a.toNat < 256) :
    memWrite s a v = .ok (s.setMem (Memory.store s.mem a.toNat v)) := by
  rcases memWrite_cases s a v with ⟨-, e⟩ | ⟨h', -⟩
  · exact e
  · omega

theorem memWrite_error {s : State} {a : Addr} {v : Byte} (h : 256 ≤ a.toNat) :
    memWrite s a v = .error (.address a) := by
  rcases memWrite_cases s a v with ⟨h', -⟩ | ⟨-, e⟩
  · omega
  · exact e

/-- A read gives back the byte a canonical memory was just given at that address (R32, R33). -/
theorem memRead_store_same {m : Memory} {a : Addr} {v : Byte} (hm : Memory.wf m = true) (h : a.toNat < 256) :
    memRead (Memory.store m a.toNat v) a = .ok v := by
  rw [memRead_ok h, Memory.byteAt_store hm, if_pos rfl]

theorem Memory.byteAt_store_of_ne {m : Memory} {a c : Nat} {v : Byte} (hm : Memory.wf m = true) (h : c ≠ a) :
    Memory.byteAt (Memory.store m a v) c = Memory.byteAt m c := by
  rw [Memory.byteAt_store hm, if_neg h]

/-- Every way a step can go is a composition of updates that leave memory alone. -/
theorem StepEffect.mem_eq {s t : State} (h : StepEffect s t) : t.mem = s.mem := by
  cases h <;> rfl

/-- No step writes memory, a fault's included (R31, R33). -/
theorem step_mem {s t : State} (h : step s = .next t) : t.mem = s.mem :=
  (step_effect h).mem_eq

/-- Settles O42: the write by its two outcomes and read after write, the steps by the effects a step can have. -/
theorem memWriteStoresOneByte : Obligations.MemWriteStoresOneByte := by
  unfold Obligations.MemWriteStoresOneByte
  refine ⟨fun s a v => ⟨memWrite_error, fun ha hs => ?_⟩, fun _ _ => step_mem⟩
  exact ⟨_, memWrite_ok ha, memRead_store_same hs ha, fun _ => Memory.byteAt_store_of_ne hs, rfl⟩

end Sys2Proof.Machine
end

section
/-! The opcode byte (30_encoding.md R55): a byte with no entry is refused by the decoder and raised by the fetch. -/

namespace Sys2Proof

/-- Any byte but the seven opcodes has no entry; the converse of `dispatch_none`. -/
theorem dispatch_eq_none_of_not_mem {opc : Byte}
    (h : opc ∉ [0x01#8, 0x82#8, 0x47#8, 0xA7#8, 0x54#8, 0x55#8, 0x56#8]) : dispatch opc = none := by
  rcases dispatch_cases opc with ⟨ho, -⟩ | ⟨ho, -⟩ | ⟨ho, -⟩ | ⟨ho, -⟩ | ⟨ho, -⟩ | ⟨ho, -⟩ | ⟨ho, -⟩ | ⟨-, e⟩
  case inr.inr.inr.inr.inr.inr.inr => exact e
  all_goals exact absurd h (by simp [ho])

/-- An opcode with no entry is reported before any operand is looked for (R56). -/
theorem decode_unknown {opc : Byte} (hd : dispatch opc = none) (rest : List Byte) :
    decode (opc :: rest) = .error (.unknownOpcode opc) := by
  simp [decode, hd]

end Sys2Proof

namespace Sys2Proof.Machine

/-- Settles O3: the seven entries by evaluating the table; for any other byte, the decoder and the fetch both follow
from its having no entry. -/
theorem dispatchComparesTheWholeByte : Obligations.DispatchComparesTheWholeByte := by
  unfold Obligations.DispatchComparesTheWholeByte
  refine ⟨rfl, rfl, rfl, rfl, rfl, rfl, rfl, fun opc hopc => ?_⟩
  have hd : dispatch opc = none := dispatch_eq_none_of_not_mem hopc
  refine ⟨hd, decode_unknown hd, ?_⟩
  rintro s hpc rfl
  exact fetchInstr_unknown hpc hd

end Sys2Proof.Machine
end

section
/-! Reset and hazards (70_reset_and_hazards.md R165): what an instruction writes is what the very next one reads.
The handlers with legal register operands come first, each as the one state it ends in. -/

namespace Sys2Proof.Machine

theorem exec_loadImmediate_legal {r : Byte} (hr : r.toNat < 8) (v : Byte) (s : State) :
    exec (.loadImmediate r v) s = .next ((s.setRegs (s.regs.set r.toNat v hr)).setPc (s.pc + 3#9)) := by
  rcases execLoadImmediate_cases r v s with ⟨_, e⟩ | ⟨h, -⟩
  · exact e
  · omega

theorem exec_printRegister_legal {r : Byte} (hr : r.toNat < 8) (s : State) :
    exec (.printRegister r) s = .next ((s.setOut (s.out ++ [s.reg ⟨r.toNat, hr⟩])).setPc (s.pc + 2#9)) := by
  rcases execPrintRegister_cases r s with ⟨_, e⟩ | ⟨h, -⟩
  · exact e
  · omega

theorem exec_compare_legal {a b : Byte} (ha : a.toNat < 8) (hb : b.toNat < 8) (s : State) :
    exec (.compare a b) s =
      .next ((s.setFl (compareFlags (s.reg ⟨a.toNat, ha⟩) (s.reg ⟨b.toNat, hb⟩))).setPc (s.pc + 3#9)) := by
  rcases execCompare_cases a b s with ⟨_, _, e⟩ | ⟨h, -⟩ | ⟨-, h, -⟩
  · exact e
  · omega
  · omega

theorem exec_jump_legal {r : Byte} (hr : r.toNat < 8) (s : State) :
    exec (.jump r) s = .next (s.setPc (zext9 (s.reg ⟨r.toNat, hr⟩))) := by
  rcases execJump_cases r s with ⟨_, e⟩ | ⟨h, -⟩
  · exact e
  · omega

/-! A conditional jump by the flag: taken it is JUMP, untaken it advances and reads no register (R121, R122, R124). -/

theorem exec_jumpIfEqual_taken {s : State} (hE : flagE s.fl = true) (r : Byte) :
    exec (.jumpIfEqual r) s = exec (.jump r) s := by
  simp [exec, execJumpIfEqual_eq, hE]

theorem exec_jumpIfEqual_untaken {s : State} (hE : flagE s.fl = false) (r : Byte) :
    exec (.jumpIfEqual r) s = .next (s.setPc (s.pc + 2#9)) := by
  simp [exec, execJumpIfEqual_eq, hE]

theorem exec_jumpIfNotEqual_taken {s : State} (hE : flagE s.fl = false) (r : Byte) :
    exec (.jumpIfNotEqual r) s = exec (.jump r) s := by
  simp [exec, execJumpIfNotEqual_eq, hE]

theorem exec_jumpIfNotEqual_untaken {s : State} (hE : flagE s.fl = true) (r : Byte) :
    exec (.jumpIfNotEqual r) s = .next (s.setPc (s.pc + 2#9)) := by
  simp [exec, execJumpIfNotEqual_eq, hE]

/-- A comparison sets `FL.E` exactly on equal values (40_alu.md R74). -/
@[simp] theorem flagE_compareFlags (a b : Byte) : flagE (compareFlags a b) = true ↔ a = b := by
  rcases compareFlags_cases a b with ⟨h, e⟩ | ⟨h, e⟩ | ⟨h, e⟩
  · simpa [e, flagE] using BitVec.eq_of_toNat_eq h
  · simpa [e, flagE] using fun hab : a = b => absurd h (by simp [hab])
  · simpa [e, flagE] using fun hab : a = b => absurd h (by simp [hab])

/-! ### What the next instruction reads -/

/-- A completed COMPARE shows the order of the two registers in the whole `FL`, and their equality in `FL.E`. -/
theorem exec_compare_fl {a b : Byte} (ha : a.toNat < 8) (hb : b.toNat < 8) (s : State) :
    ∃ u, exec (.compare a b) s = .next u ∧
      u.fl = compareFlags (s.reg ⟨a.toNat, ha⟩) (s.reg ⟨b.toNat, hb⟩) ∧
      (flagE u.fl = true ↔ s.reg ⟨a.toNat, ha⟩ = s.reg ⟨b.toNat, hb⟩) :=
  ⟨_, exec_compare_legal ha hb s, rfl, flagE_compareFlags _ _⟩

theorem exec_jump_pc {r : Byte} (hr : r.toNat < 8) (s : State) :
    ∃ u, exec (.jump r) s = .next u ∧ u.pc.toNat = (s.reg ⟨r.toNat, hr⟩).toNat :=
  ⟨_, exec_jump_legal hr s, toNat_zext9 _⟩

/-- What LOAD_IMMEDIATE of a legal register hands to the instruction after it: the immediate in that register, every
other register, `FL` and `OUT` as they were. -/
theorem exec_loadImmediate_readback {r : Byte} (hr : r.toNat < 8) (v : Byte) (s : State) :
    ∃ t, exec (.loadImmediate r v) s = .next t ∧ t.fl = s.fl ∧ t.out = s.out ∧
      ∀ (b : Byte) (hb : b.toNat < 8), t.reg ⟨b.toNat, hb⟩ = if b = r then v else s.reg ⟨b.toNat, hb⟩ := by
  refine ⟨_, exec_loadImmediate_legal hr v s, rfl, rfl, fun b hb => ?_⟩
  simp only [State.reg_setPc, reg_set, BitVec.toNat_inj]

/-! ### Jumps and the next fetch -/

/-- A step from RUNNING with `pc` in memory fetches at `pc` first (41_execution_engine.md R83). -/
theorem fetchAddrs_head? {s : State} (hr : s.runState = .running) (hpc : s.pc.toNat < 256) :
    (fetchAddrs s).head? = some s.pc := by
  simp [fetchAddrs, hr, hpc]

/-- JUMP, and a conditional jump whose condition holds, are one handler. -/
theorem exec_taken_eq_jump {s : State} {i : Instr} {r : Byte}
    (hi : i = .jump r ∨ (i = .jumpIfEqual r ∧ flagE s.fl = true) ∨ (i = .jumpIfNotEqual r ∧ flagE s.fl = false)) :
    exec i s = exec (.jump r) s := by
  rcases hi with rfl | ⟨rfl, hE⟩ | ⟨rfl, hE⟩
  · rfl
  · exact exec_jumpIfEqual_taken hE r
  · exact exec_jumpIfNotEqual_taken hE r

/-- A register's value is below 256, so the fetch after a JUMP is made, at that value. -/
theorem exec_jump_next_fetch {s : State} {r : Byte} (hr : r.toNat < 8) (hs : s.runState = .running) :
    ∃ t f, exec (.jump r) s = .next t ∧ (fetchAddrs t).head? = some f ∧
      f.toNat = (s.reg ⟨r.toNat, hr⟩).toNat := by
  refine ⟨_, _, exec_jump_legal hr s, fetchAddrs_head? hs ?_, toNat_zext9 _⟩
  rw [State.setPc_pc, toNat_zext9]
  exact BitVec.isLt _

/-! ### COMPARE and the next jump, and R165 whole -/

/-- The flags a COMPARE has just written decide the conditional jump after it, both ways. -/
theorem exec_compare_then_conditional_jumps {s : State} {a b r : Byte} (ha : a.toNat < 8) (hb : b.toNat < 8)
    (hr : r.toNat < 8) :
    ∃ t u w, exec (.compare a b) s = .next t ∧ exec (.jumpIfEqual r) t = .next u ∧
      exec (.jumpIfNotEqual r) t = .next w ∧
      (s.reg ⟨a.toNat, ha⟩ = s.reg ⟨b.toNat, hb⟩ →
        u.pc.toNat = (s.reg ⟨r.toNat, hr⟩).toNat ∧ w.pc = t.pc + 2#9) ∧
      (s.reg ⟨a.toNat, ha⟩ ≠ s.reg ⟨b.toNat, hb⟩ →
        u.pc = t.pc + 2#9 ∧ w.pc.toNat = (s.reg ⟨r.toNat, hr⟩).toNat) := by
  obtain ⟨t, et, hregs, hE⟩ : ∃ t, exec (.compare a b) s = .next t ∧ SameRegs s t ∧
      (flagE t.fl = true ↔ s.reg ⟨a.toNat, ha⟩ = s.reg ⟨b.toNat, hb⟩) :=
    ⟨_, exec_compare_legal ha hb s, fun _ => rfl, flagE_compareFlags _ _⟩
  obtain ⟨j, ej, hj⟩ := exec_jump_pc hr t
  rw [hregs] at hj
  cases h : flagE t.fl with
  | true =>
    have heq := hE.1 h
    exact ⟨t, j, _, et, (exec_jumpIfEqual_taken h r).trans ej, exec_jumpIfNotEqual_untaken h r,
      fun _ => ⟨hj, rfl⟩, fun hne => absurd heq hne⟩
  | false =>
    have hne : s.reg ⟨a.toNat, ha⟩ ≠ s.reg ⟨b.toNat, hb⟩ := fun heq => by simp [hE.2 heq] at h
    exact ⟨t, _, j, et, exec_jumpIfEqual_untaken h r, (exec_jumpIfNotEqual_taken h r).trans ej,
      fun heq => absurd heq hne, fun _ => ⟨rfl, hj⟩⟩

/-- Settles O33: each reader of the loaded register from what LOAD_IMMEDIATE hands on, the conditional jumps from the
flag a COMPARE sets, the next fetch from the one handler that all taken jumps share. -/
theorem noHazards : Obligations.NoHazards := by
  unfold Obligations.NoHazards
  refine ⟨fun s r v hr => ?_, fun s a b r ha hb hr => exec_compare_then_conditional_jumps ha hb hr,
    fun s i r hr hs hi => ?_⟩
  · obtain ⟨t, et, hfl, hout, hreg⟩ := exec_loadImmediate_readback hr v s
    have hv : t.reg ⟨r.toNat, hr⟩ = v := (hreg r hr).trans (if_pos rfl)
    have hjump : ∃ u, exec (.jump r) t = .next u ∧ u.pc.toNat = v.toNat := hv ▸ exec_jump_pc hr t
    refine ⟨t, et, ?prints, fun b hb => ⟨?first, ?second⟩, hjump, fun hE => ?equal, fun hE => ?notEqual⟩
    case prints => exact ⟨_, exec_printRegister_legal hr t, by simp [hout, hv]⟩
    case first => simpa only [hv, hreg b hb] using exec_compare_fl hr hb t
    case second => simpa only [hv, hreg b hb] using exec_compare_fl hb hr t
    case equal => rwa [exec_jumpIfEqual_taken (hfl ▸ hE)]
    case notEqual => rwa [exec_jumpIfNotEqual_taken (hfl ▸ hE)]
  · rw [exec_taken_eq_jump hi]
    exact exec_jump_next_fetch hr hs

end Sys2Proof.Machine
end

section
/-! Encoding (30_encoding.md sections 1 to 3): the decoder is the inverse of the encoder, for every operand byte. -/

namespace Sys2Proof

theorem decode_cons {opc : Byte} {h : Handler} (hd : dispatch opc = some h) (rest : List Byte) :
    decode (opc :: rest) = assemble h rest := by
  simp [decode, hd]

theorem assemble_f0_ok {j i : Instr} {bytes rest : List Byte} (h : assemble (.f0 j) bytes = .ok (i, rest)) :
    j = i ∧ bytes = rest := by
  simpa [assemble] using h

theorem assemble_f1_ok {mk : Byte → Instr} {bytes rest : List Byte} {i : Instr}
    (h : assemble (.f1 mk) bytes = .ok (i, rest)) : ∃ op1, bytes = op1 :: rest ∧ i = mk op1 := by
  cases bytes with
  | nil => cases h
  | cons op1 tail => cases h; exact ⟨op1, rfl, rfl⟩

theorem assemble_f2_ok {mk : Byte → Byte → Instr} {bytes rest : List Byte} {i : Instr}
    (h : assemble (.f2 mk) bytes = .ok (i, rest)) : ∃ op1 op2, bytes = op1 :: op2 :: rest ∧ i = mk op1 op2 := by
  match bytes, h with
  | op1 :: op2 :: tail, h => cases h; exact ⟨op1, op2, rfl, rfl⟩

/-- Whatever follows an instruction's encoding, the decoder reads the instruction and leaves the rest. -/
theorem decode_encode_append (i : Instr) (rest : List Byte) : decode (encode i ++ rest) = .ok (i, rest) := by
  cases i with
  | halt => rfl
  | loadImmediate op1 op2 => rfl
  | printRegister op1 => rfl
  | compare op1 op2 => rfl
  | jump op1 => rfl
  | jumpIfEqual op1 => rfl
  | jumpIfNotEqual op1 => rfl

/-- What decodes to an instruction begins with that instruction's encoding, by the format of its opcode. -/
theorem eq_encode_append_of_decode {bytes rest : List Byte} {i : Instr} (h : decode bytes = .ok (i, rest)) :
    bytes = encode i ++ rest := by
  cases bytes with
  | nil => cases h
  | cons opc tail =>
    cases hd : dispatch opc with
    | none => rw [decode_unknown hd] at h; cases h
    | some handler =>
      rw [decode_cons hd] at h
      cases handler with
      | f0 j =>
        obtain ⟨rfl, rfl⟩ := assemble_f0_ok h
        obtain ⟨rfl, rfl⟩ := dispatch_f0 hd
        rfl
      | f1 mk =>
        obtain ⟨op1, rfl, rfl⟩ := assemble_f1_ok h
        obtain ⟨rfl, rfl⟩ | ⟨rfl, rfl⟩ | ⟨rfl, rfl⟩ | ⟨rfl, rfl⟩ := dispatch_f1 hd <;> rfl
      | f2 mk =>
        obtain ⟨op1, op2, rfl, rfl⟩ := assemble_f2_ok h
        obtain ⟨rfl, rfl⟩ | ⟨rfl, rfl⟩ := dispatch_f2 hd <;> rfl

/-- Settles O1: one direction by the instruction, the other by the format of the opcode byte. -/
theorem decodeAndEncodeAgree : Obligations.DecodeAndEncodeAgree := by
  unfold Obligations.DecodeAndEncodeAgree
  refine fun bytes i rest => ⟨eq_encode_append_of_decode, ?_⟩
  rintro rfl
  exact decode_encode_append i rest

/-- Settles O2: each word is written as the encoding of the instruction beside it. -/
theorem writtenWordsDecode : Obligations.WrittenWordsDecode := by
  unfold Obligations.WrittenWordsDecode
  exact ⟨decode_encode_append .halt [], decode_encode_append (.loadImmediate 3 200) [],
    decode_encode_append (.printRegister 6) [], decode_encode_append (.compare 1 7) [],
    decode_encode_append (.jump 255) [], decode_encode_append (.jumpIfEqual 2) [],
    decode_encode_append (.jumpIfNotEqual 9) [], decode_encode_append (.loadImmediate 0 7) [],
    decode_encode_append (.compare 5 0) [], decode_encode_append (.printRegister 0) []⟩

end Sys2Proof
end

section
/-! The step and its effects (41_execution_engine.md): each way a step can go is the step of every RUNNING state that
meets its conditions, the converse of `step_effect`. -/

namespace Sys2Proof.Machine

/-! ### The handlers with an illegal register operand: the fault entry, and nothing else (60_exceptions.md R133) -/

theorem exec_loadImmediate_illegal {r : Byte} (hr : 8 ≤ r.toNat) (v : Byte) (s : State) :
    exec (.loadImmediate r v) s = .next (s.raise (.registerIndex r)) := by
  rcases execLoadImmediate_cases r v s with ⟨h, -⟩ | ⟨-, e⟩
  · omega
  · exact e

theorem exec_printRegister_illegal {r : Byte} (hr : 8 ≤ r.toNat) (s : State) :
    exec (.printRegister r) s = .next (s.raise (.registerIndex r)) := by
  rcases execPrintRegister_cases r s with ⟨h, -⟩ | ⟨-, e⟩
  · omega
  · exact e

theorem exec_compare_illegal_op1 {a : Byte} (ha : 8 ≤ a.toNat) (b : Byte) (s : State) :
    exec (.compare a b) s = .next (s.raise (.registerIndex a)) := by
  rcases execCompare_cases a b s with ⟨h, -⟩ | ⟨-, e⟩ | ⟨h, -⟩
  · omega
  · exact e
  · omega

theorem exec_compare_illegal_op2 {a b : Byte} (ha : a.toNat < 8) (hb : 8 ≤ b.toNat) (s : State) :
    exec (.compare a b) s = .next (s.raise (.registerIndex b)) := by
  rcases execCompare_cases a b s with ⟨-, h, -⟩ | ⟨h, -⟩ | ⟨-, -, e⟩
  · omega
  · omega
  · exact e

theorem exec_jump_illegal {r : Byte} (hr : 8 ≤ r.toNat) (s : State) :
    exec (.jump r) s = .next (s.raise (.registerIndex r)) := by
  rcases execJump_cases r s with ⟨h, -⟩ | ⟨-, e⟩
  · omega
  · exact e

/-! ### The step by the opcode at `pc` -/

/-- A conditional jump stands at `pc` and its condition holds (R121, R122). -/
abbrev TakenAt (s : State) : Prop := (opcAt s = 0x55#8 ∧ flagE s.fl = true) ∨ (opcAt s = 0x56#8 ∧ flagE s.fl = false)

/-- A conditional jump stands at `pc` and its condition fails. -/
abbrev UntakenAt (s : State) : Prop := (opcAt s = 0x55#8 ∧ flagE s.fl = false) ∨ (opcAt s = 0x56#8 ∧ flagE s.fl = true)

theorem step_f1 {s : State} {mk : Byte → Instr} (hr : s.runState = .running) (hpc : s.pc.toNat < 255)
    (hd : dispatch (opcAt s) = some (.f1 mk)) : step s = exec (mk (op1At s)) s :=
  step_of_fetch_ok hr (fetchInstr_f1 hpc hd)

theorem step_f2 {s : State} {mk : Byte → Byte → Instr} (hr : s.runState = .running) (hpc : s.pc.toNat < 254)
    (hd : dispatch (opcAt s) = some (.f2 mk)) : step s = exec (mk (op1At s) (op2At s)) s :=
  step_of_fetch_ok hr (fetchInstr_f2 hpc hd)

theorem step_halt {s : State} (hr : s.runState = .running) (hpc : s.pc.toNat < 256) (hop : opcAt s = 0x01#8) :
    step s = exec .halt s := by
  have hd : dispatch (opcAt s) = some (.f0 .halt) := by rw [hop]; rfl
  exact step_of_fetch_ok hr (fetchInstr_f0 hpc hd)

theorem step_loadImmediate {s : State} (hr : s.runState = .running) (hpc : s.pc.toNat < 254)
    (hop : opcAt s = 0x82#8) : step s = exec (.loadImmediate (op1At s) (op2At s)) s :=
  step_f2 hr hpc (by rw [hop]; rfl)

theorem step_compare {s : State} (hr : s.runState = .running) (hpc : s.pc.toNat < 254) (hop : opcAt s = 0xA7#8) :
    step s = exec (.compare (op1At s) (op2At s)) s :=
  step_f2 hr hpc (by rw [hop]; rfl)

theorem step_printRegister {s : State} (hr : s.runState = .running) (hpc : s.pc.toNat < 255)
    (hop : opcAt s = 0x47#8) : step s = exec (.printRegister (op1At s)) s :=
  step_f1 hr hpc (by rw [hop]; rfl)

/-- JUMP and the taken conditional jumps step alike. -/
theorem step_jump {s : State} (hr : s.runState = .running) (hpc : s.pc.toNat < 255)
    (hop : opcAt s = 0x54#8 ∨ TakenAt s) :
    step s = exec (.jump (op1At s)) s := by
  rcases hop with hop | ⟨hop, hE⟩ | ⟨hop, hE⟩
  · exact step_f1 hr hpc (by rw [hop]; rfl)
  · rw [step_f1 hr hpc (mk := .jumpIfEqual) (by rw [hop]; rfl), exec_jumpIfEqual_taken hE]
  · rw [step_f1 hr hpc (mk := .jumpIfNotEqual) (by rw [hop]; rfl), exec_jumpIfNotEqual_taken hE]

theorem step_untaken {s : State} (hr : s.runState = .running) (hpc : s.pc.toNat < 255)
    (hop : UntakenAt s) :
    step s = .next (s.setPc (s.pc + 2#9)) := by
  rcases hop with ⟨hop, hE⟩ | ⟨hop, hE⟩
  · rw [step_f1 hr hpc (mk := .jumpIfEqual) (by rw [hop]; rfl), exec_jumpIfEqual_untaken hE]
  · rw [step_f1 hr hpc (mk := .jumpIfNotEqual) (by rw [hop]; rfl), exec_jumpIfNotEqual_untaken hE]

/-! ### The fetches that fail -/

/-- The opcodes with at least one operand byte, and those with two, by the format of their table entry. -/
theorem dispatch_of_mem_operand {opc : Byte} (h : opc ∈ [0x82#8, 0x47#8, 0xA7#8, 0x54#8, 0x55#8, 0x56#8]) :
    (∃ mk, dispatch opc = some (.f1 mk)) ∨ ∃ mk, dispatch opc = some (.f2 mk) := by
  simp only [List.mem_cons, List.not_mem_nil, or_false] at h
  rcases h with rfl | rfl | rfl | rfl | rfl | rfl
  · exact .inr ⟨_, rfl⟩
  · exact .inl ⟨_, rfl⟩
  · exact .inr ⟨_, rfl⟩
  · exact .inl ⟨_, rfl⟩
  · exact .inl ⟨_, rfl⟩
  · exact .inl ⟨_, rfl⟩

theorem dispatch_of_mem_f2 {opc : Byte} (h : opc ∈ [0x82#8, 0xA7#8]) : ∃ mk, dispatch opc = some (.f2 mk) := by
  simp only [List.mem_cons, List.not_mem_nil, or_false] at h
  rcases h with rfl | rfl
  · exact ⟨_, rfl⟩
  · exact ⟨_, rfl⟩

theorem fetchInstr_past_end {s : State} (hpc : 256 ≤ s.pc.toNat) : fetchInstr s = .error (.address s.pc) := by
  rcases fetchInstr_cases s with ⟨-, e⟩ | ⟨h, -⟩
  · exact e
  · omega

theorem fetchInstr_operand_end {s : State} (hpc : s.pc.toNat = 255)
    (hop : opcAt s ∈ [0x82#8, 0x47#8, 0xA7#8, 0x54#8, 0x55#8, 0x56#8]) :
    fetchInstr s = .error (.address 256#9) := by
  obtain ⟨mk, hd⟩ | ⟨mk, hd⟩ := dispatch_of_mem_operand hop
  · exact fetchInstr_f1_end hpc hd
  · exact fetchInstr_f2_end (by omega) (by omega) hd

/-- Each effect is the step of a RUNNING state that meets its conditions. -/
theorem step_of_effect {s t : State} (hr : s.runState = .running) (h : StepEffect s t) : step s = .next t := by
  cases h with
  | opcodeFetchFault hpc => exact step_of_fetch_error hr (fetchInstr_past_end hpc)
  | unknownOpcode hpc hop => exact step_of_fetch_error hr (fetchInstr_unknown hpc (dispatch_eq_none_of_not_mem hop))
  | op1FetchFault hpc hop => exact step_of_fetch_error hr (fetchInstr_operand_end hpc hop)
  | op2FetchFault hpc hop =>
    obtain ⟨mk, hd⟩ := dispatch_of_mem_f2 hop
    exact step_of_fetch_error hr (fetchInstr_f2_end (by omega) (by omega) hd)
  | op1IndexFault2 hpc hop hi =>
    simp only [List.mem_cons, List.not_mem_nil, or_false] at hop
    rcases hop with hop | hop
    · rw [step_loadImmediate hr hpc hop, exec_loadImmediate_illegal hi]
    · rw [step_compare hr hpc hop, exec_compare_illegal_op1 hi]
  | op1IndexFault1 hpc hop hi =>
    simp only [List.mem_cons, List.not_mem_nil, or_false] at hop
    rcases hop with (hop | hop) | hop
    · rw [step_printRegister hr hpc hop, exec_printRegister_illegal hi]
    · rw [step_jump hr hpc (.inl hop), exec_jump_illegal hi]
    · rw [step_jump hr hpc (.inr hop), exec_jump_illegal hi]
  | op2IndexFault hpc hop h1 hi => rw [step_compare hr hpc hop, exec_compare_illegal_op2 h1 hi]
  | halts hpc hop => exact step_halt hr hpc hop
  | loads hpc hop h => rw [step_loadImmediate hr hpc hop, exec_loadImmediate_legal h]
  | prints hpc hop h => rw [step_printRegister hr hpc hop, exec_printRegister_legal h]
  | compares hpc hop h1 h2 => rw [step_compare hr hpc hop, exec_compare_legal h1 h2]
  | jumps hpc hop h => rw [step_jump hr hpc hop, exec_jump_legal h]
  | fallsThrough hpc hop => exact step_untaken hr hpc hop

theorem step_next_running {s t : State} (h : step s = .next t) : s.runState = .running :=
  (step_next_cases h).1

theorem step_exists {s : State} (hr : s.runState = .running) : ∃ t, step s = .next t := by
  cases hf : fetchInstr s with
  | ok i => rw [step_of_fetch_ok hr hf]; exact exec_next i s
  | error e => exact ⟨_, step_of_fetch_error hr hf⟩

/-- Settles O6: RUNNING steps because every fetch and every handler answers; the ends answer that they do not. -/
theorem aStepExistsExactlyWhenRunning : Obligations.AStepExistsExactlyWhenRunning := by
  unfold Obligations.AStepExistsExactlyWhenRunning
  exact fun s => ⟨⟨fun ⟨_, h⟩ => step_next_running h, step_exists⟩, step_halted, step_faulted⟩

end Sys2Proof.Machine
end

section
/-! Faults (60_exceptions.md) and the invariant of the state (10_state.md): what a fault entry writes, which faults a
step can take, and that every step of a run keeps `Inv`. -/

namespace Sys2Proof.Machine

/-! ### The invariant -/

/-- A RUNNING state with clear fault fields meets the invariant when its memory, `pc` and `FL` do. -/
theorem inv_of_running_clear {s : State} (hr : s.runState = .running) (hc : FaultFieldsClear s)
    (hm : Memory.wf s.mem = true) (hp : s.pc.toNat ≤ 256)
    (hf : s.fl = 0x00#8 ∨ s.fl = 0x01#8 ∨ s.fl = 0x02#8 ∨ s.fl = 0x04#8) : Inv s where
  memCanonical := hm
  pcInRange := hp
  flLegal := hf
  haltedPc h := by simp [hr] at h
  faultClear _ := hc
  faultRecord h := by simp [hr] at h

/-- A fault entry keeps the invariant when the record it writes is legal. -/
theorem inv_raise {s : State} {e : CoreError} (hi : Inv s) (hrec : FaultRecordLegal (s.raise e)) :
    Inv (s.raise e) where
  memCanonical := hi.memCanonical
  pcInRange := hi.pcInRange
  flLegal := hi.flLegal
  haltedPc h := by simp at h
  faultClear h := by simp at h
  faultRecord _ := hrec

/-- A write to `pc` in memory or just past it keeps the invariant of a RUNNING state. -/
theorem inv_setPc {s : State} {a : Addr} (hi : Inv s) (hr : s.runState = .running) (ha : a.toNat ≤ 256) :
    Inv (s.setPc a) :=
  inv_of_running_clear hr (hi.faultClear (by simp [hr])) hi.memCanonical ha hi.flLegal

theorem compareFlags_legal (a b : Byte) :
    compareFlags a b = 0x00#8 ∨ compareFlags a b = 0x01#8 ∨ compareFlags a b = 0x02#8 ∨ compareFlags a b = 0x04#8 := by
  rcases compareFlags_cases a b with ⟨-, e⟩ | ⟨-, e⟩ | ⟨-, e⟩ <;> simp [e]

theorem lengthFromOpcode_eq_none {opc : Byte} (hd : dispatch opc = none) : lengthFromOpcode opc = none := by
  simp [lengthFromOpcode, hd]

theorem faultRecordLegal_address {s : State} (hpc : 254 ≤ s.pc.toNat) :
    FaultRecordLegal (s.raise (.address 256#9)) :=
  ⟨rfl, .inr (.inl ⟨rfl, hpc, rfl⟩)⟩

theorem faultRecordLegal_registerIndex {s : State} {i : Byte} (hi : 8 ≤ i.toNat) :
    FaultRecordLegal (s.raise (.registerIndex i)) := by
  have hinfo : (s.raise (.registerIndex i)).faultInfo.toNat = i.toNat := toNat_zext9 i
  exact ⟨rfl, .inr (.inr ⟨rfl, by rw [hinfo]; exact hi, by rw [hinfo]; exact i.isLt⟩)⟩

theorem faultRecordLegal_unknownOpcode {s : State} (hpc : s.pc.toNat < 256) (hd : dispatch (opcAt s) = none) :
    FaultRecordLegal (s.raise (.unknownOpcode (opcAt s))) :=
  ⟨rfl, .inl ⟨rfl, hpc, rfl, lengthFromOpcode_eq_none hd⟩⟩

/-- Each effect keeps the invariant of a RUNNING state. -/
theorem inv_of_effect {s t : State} (hi : Inv s) (hr : s.runState = .running) (h : StepEffect s t) : Inv t := by
  have hclear : FaultFieldsClear s := hi.faultClear (by simp [hr])
  cases h with
  | opcodeFetchFault hpc =>
    have hpc256 : s.pc = 256#9 := BitVec.eq_of_toNat_eq (le_antisymm hi.pcInRange hpc)
    exact inv_raise hi (hpc256 ▸ faultRecordLegal_address (by omega))
  | unknownOpcode hpc hop =>
    exact inv_raise hi (faultRecordLegal_unknownOpcode hpc (dispatch_eq_none_of_not_mem hop))
  | op1FetchFault hpc _ => exact inv_raise hi (faultRecordLegal_address (by omega))
  | op2FetchFault hpc _ => exact inv_raise hi (faultRecordLegal_address (by omega))
  | op1IndexFault2 _ _ hidx => exact inv_raise hi (faultRecordLegal_registerIndex hidx)
  | op1IndexFault1 _ _ hidx => exact inv_raise hi (faultRecordLegal_registerIndex hidx)
  | op2IndexFault _ _ _ hidx => exact inv_raise hi (faultRecordLegal_registerIndex hidx)
  | halts =>
    exact {
      memCanonical := hi.memCanonical
      pcInRange := by simp
      flLegal := hi.flLegal
      haltedPc := fun _ => rfl
      faultClear := fun _ => hclear
      faultRecord := fun h => by simp at h }
  | loads hpc _ h =>
    refine inv_of_running_clear hr hclear hi.memCanonical ?_ hi.flLegal
    rw [State.setPc_pc, toNat_add_three (by omega)]
    omega
  | prints hpc _ h =>
    refine inv_of_running_clear hr hclear hi.memCanonical ?_ hi.flLegal
    rw [State.setPc_pc, toNat_add_two (by omega)]
    omega
  | compares hpc _ h1 h2 =>
    refine inv_of_running_clear hr hclear hi.memCanonical ?_ (compareFlags_legal _ _)
    rw [State.setPc_pc, toNat_add_three (by omega)]
    omega
  | jumps _ _ h =>
    refine inv_setPc hi hr ?_
    rw [toNat_zext9]
    exact (BitVec.isLt _).le
  | fallsThrough hpc _ =>
    refine inv_setPc hi hr ?_
    rw [toNat_add_two (by omega)]
    omega

theorem step_inv {s t : State} (hi : Inv s) (h : step s = .next t) : Inv t :=
  inv_of_effect hi (step_next_running h) (step_effect h)

/-- Settles O11, by the effects a step can have. -/
theorem everyStepKeepsTheInvariant : Obligations.EveryStepKeepsTheInvariant := by
  unfold Obligations.EveryStepKeepsTheInvariant
  exact fun _ _ => step_inv

end Sys2Proof.Machine
end

section
/-! Load, reset and launch (20_memory.md R34, 70_reset_and_hazards.md R160 to R162): what lies where before the first
step, and the invariant from there on. -/

namespace Sys2Proof.Machine

/-! ### The bytes of a stored list -/

theorem Memory.byteAt_storeList_of_getElem? {bytes : List Byte} {m : Memory} {a k : Nat} {b : Byte}
    (hm : Memory.wf m = true) (hfit : a + bytes.length ≤ 256) (hb : bytes[k]? = some b) :
    Memory.byteAt (Memory.storeList m a bytes) (a + k) = b := by
  have hk : k < bytes.length := (List.getElem?_eq_some_iff.1 hb).1
  rw [Memory.byteAt_storeList hm hfit, if_pos (by omega), Nat.add_sub_cancel_left, List.getD_eq_getElem?_getD, hb,
    Option.getD_some]

theorem Memory.byteAt_storeList_outside {bytes : List Byte} {m : Memory} {a c : Nat} (hm : Memory.wf m = true)
    (hfit : a + bytes.length ≤ 256) (hc : c < a ∨ a + bytes.length ≤ c) :
    Memory.byteAt (Memory.storeList m a bytes) c = Memory.byteAt m c := by
  rw [Memory.byteAt_storeList hm hfit, if_neg (by omega)]

/-! ### The loads -/

theorem bulkLoad_ok {s : State} {start : Nat} {bytes : List Byte} (h : start + bytes.length ≤ 256) :
    bulkLoad s start bytes = .ok (s.setMem (Memory.storeList s.mem start bytes)) := by
  rcases bulkLoad_cases s start bytes with ⟨-, e⟩ | ⟨h', -⟩
  · exact e
  · omega

theorem bulkLoad_error {s : State} {start : Nat} {bytes : List Byte} (h : 256 < start + bytes.length) :
    bulkLoad s start bytes = .error .programLoadError := by
  rcases bulkLoad_cases s start bytes with ⟨h', -⟩ | ⟨-, e⟩
  · omega
  · exact e

theorem load_ok {s : State} {image : List Byte} (h : image.length ≤ 256) :
    load s image = .ok (s.setMem (Memory.storeList s.mem 0 image)) := by
  have hfits : imageFits image = true := by simpa [imageFits] using h
  rw [load, if_pos hfits, bulkLoad_ok (by omega)]

theorem load_error {s : State} {image : List Byte} (h : 256 < image.length) :
    load s image = .error .programLoadError := by
  have hfits : ¬imageFits image = true := by simpa [imageFits] using h
  rw [load, if_neg hfits]

/-- Settles O44: a load is a bulk load from 0; what lies where is read after the list of bytes is stored. -/
theorem loadPlacesTheImage : Obligations.LoadPlacesTheImage := by
  unfold Obligations.LoadPlacesTheImage
  refine ⟨fun s image => ⟨load_error, fun hfit hm => ?_⟩, fun s start bytes => ⟨bulkLoad_error, fun hfit hm => ?_⟩⟩
  · have hfit0 : 0 + image.length ≤ 256 := by omega
    refine ⟨_, load_ok hfit, rfl, fun k b hb => ?_, fun k hk => ?_⟩
    · simpa using Memory.byteAt_storeList_of_getElem? hm hfit0 hb
    · exact Memory.byteAt_storeList_outside hm hfit0 (by omega)
  · exact ⟨_, bulkLoad_ok hfit, rfl, Memory.storeList_wf hm,
      fun _ _ => Memory.byteAt_storeList_of_getElem? hm hfit, fun _ => Memory.byteAt_storeList_outside hm hfit⟩

/-! ### Reset -/

theorem reset_reg (k : Fin 8) : State.reset.reg k = 0x00#8 := by
  simp [State.reg, State.reset, Config.registerReset]

theorem reset_faultFieldsClear : FaultFieldsClear State.reset := ⟨rfl, rfl, rfl⟩

/-- Settles O45, field by field: no earlier state shows. -/
theorem resetState : Obligations.ResetState := by
  unfold Obligations.ResetState
  exact fun _ => ⟨rfl, rfl, fun _ => rfl, rfl, reset_faultFieldsClear, reset_reg, rfl⟩

theorem reset_inv : Inv State.reset :=
  inv_of_running_clear rfl reset_faultFieldsClear reset_mem_wf (Nat.zero_le _) (.inl rfl)

/-- Settles O12: the reset state is RUNNING with clear fault fields, empty memory, `pc` 0 and `FL` 0. -/
theorem resetMeetsTheInvariant : Obligations.ResetMeetsTheInvariant := by
  unfold Obligations.ResetMeetsTheInvariant
  exact reset_inv

/-! ### Launch -/

/-- The state that a launched image starts from: reset, with the image in memory. -/
def launchedState (image : List Byte) : State := State.reset.setMem (Memory.storeList State.reset.mem 0 image)

@[simp] theorem launchedState_mem (image : List Byte) :
    (launchedState image).mem = Memory.storeList State.reset.mem 0 image := rfl

theorem launch_ok {image : List Byte} (h : image.length ≤ 256) : launch image = .ok (launchedState image) :=
  load_ok h

theorem launch_error {image : List Byte} (h : 256 < image.length) : launch image = .error .programLoadError :=
  load_error h

/-- All a launch can do (R135, R162). -/
theorem launch_cases (image : List Byte) :
    (image.length ≤ 256 ∧ launch image = .ok (launchedState image)) ∨
      (256 < image.length ∧ launch image = .error .programLoadError) := by
  rcases Nat.lt_or_ge 256 image.length with h | h
  · exact .inr ⟨h, launch_error h⟩
  · exact .inl ⟨h, launch_ok h⟩

/-- The image from address 0, and 0x00 above it. -/
theorem launchedState_byteAt {image : List Byte} (h : image.length ≤ 256) (k : Nat) :
    Memory.byteAt (launchedState image).mem k = image.getD k 0x00#8 := by
  have hfit : 0 + image.length ≤ 256 := by omega
  rcases Nat.lt_or_ge k image.length with hk | hk
  · rw [List.getD_eq_getElem _ _ hk, launchedState_mem]
    simpa using Memory.byteAt_storeList_of_getElem? reset_mem_wf hfit (List.getElem?_eq_getElem hk)
  · rw [List.getD_eq_default _ _ hk]
    exact Memory.byteAt_storeList_outside reset_mem_wf hfit (by omega)

theorem launchedState_mem_wf (image : List Byte) : Memory.wf (launchedState image).mem = true :=
  Memory.storeList_wf reset_mem_wf

theorem launchedState_inv (image : List Byte) : Inv (launchedState image) :=
  inv_of_running_clear rfl reset_faultFieldsClear (launchedState_mem_wf image) (Nat.zero_le _) (.inl rfl)

/-- Settles O46: an image that fits is stored over the reset state. -/
theorem launchState : Obligations.LaunchState := by
  unfold Obligations.LaunchState
  exact fun image h => ⟨launchedState image, launch_ok h, rfl, rfl, launchedState_byteAt h, reset_faultFieldsClear, rfl,
    reset_reg, rfl, launchedState_mem_wf image⟩

/-- Every state of a launched run meets the invariant. -/
theorem run_launchedState_inv (image : List Byte) (fuel : Nat) : Inv (run (launchedState image) fuel) :=
  run_keeps (fun _ _ => step_inv) (launchedState_inv image) fuel

/-- Settles O13: the launch state meets the invariant and every step keeps it. -/
theorem everyLaunchedRunMeetsTheInvariant : Obligations.EveryLaunchedRunMeetsTheInvariant := by
  unfold Obligations.EveryLaunchedRunMeetsTheInvariant
  intro image s hs fuel
  rcases launch_cases image with ⟨-, e⟩ | ⟨-, e⟩ <;> rw [e] at hs <;> cases hs
  exact run_launchedState_inv image fuel

end Sys2Proof.Machine
end

section
/-! The faults of a step (60_exceptions.md sections 1, 3 and 4): the codes and records of an entry, and the matrix. -/

namespace Sys2Proof.Machine

theorem toNat_info_unsupportedOperation (tag : BitVec 4) :
    (CoreError.unsupportedOperation tag).info.toNat = tag.toNat := by
  have := tag.isLt
  simp only [CoreError.info, BitVec.toNat_setWidth]
  omega

/-- Settles O8, error by error. -/
theorem raiseWritesOnlyTheFaultFields : Obligations.RaiseWritesOnlyTheFaultFields := by
  unfold Obligations.RaiseWritesOnlyTheFaultFields
  refine fun s e => ⟨rfl, rfl, fun _ => rfl, rfl, rfl, rfl, rfl, ?_, ?_, ?_, ?_⟩
  · rintro opc rfl
    exact ⟨rfl, toNat_zext9 opc⟩
  · rintro a rfl
    exact ⟨rfl, rfl⟩
  · rintro i rfl
    exact ⟨rfl, toNat_zext9 i⟩
  · rintro tag rfl
    exact ⟨rfl, toNat_info_unsupportedOperation tag⟩

/-- A step into FAULTED is a fault entry, never the end of a completed instruction. -/
theorem StepEffect.eq_raise_of_faulted {s t : State} (h : StepEffect s t) (hr : s.runState = .running)
    (ht : t.runState = .faulted) : ∃ e, t = s.raise e := by
  cases h with
  | opcodeFetchFault => exact ⟨_, rfl⟩
  | unknownOpcode => exact ⟨_, rfl⟩
  | op1FetchFault => exact ⟨_, rfl⟩
  | op2FetchFault => exact ⟨_, rfl⟩
  | op1IndexFault2 => exact ⟨_, rfl⟩
  | op1IndexFault1 => exact ⟨_, rfl⟩
  | op2IndexFault => exact ⟨_, rfl⟩
  | _ => simp [hr] at ht

theorem step_faulted_eq_raise {s t : State} (h : step s = .next t) (ht : t.runState = .faulted) :
    ∃ e, t = s.raise e :=
  (step_effect h).eq_raise_of_faulted (step_next_running h) ht

/-- Settles O9: every step into FAULTED is a fault entry. -/
theorem faultingStepsArePrecise : Obligations.FaultingStepsArePrecise := by
  unfold Obligations.FaultingStepsArePrecise
  intro s t h ht
  obtain ⟨e, rfl⟩ := step_faulted_eq_raise h ht
  exact raise_eq_faultedAs s e

/-- Settles O10: each fault effect is a row of the matrix. -/
theorem faultMatrixIsComplete : Obligations.FaultMatrixIsComplete := by
  unfold Obligations.FaultMatrixIsComplete
  intro s t hpc h ht
  have hr := step_next_running h
  cases step_effect h with
  | opcodeFetchFault h256 =>
    have he : s.pc = 256#9 := BitVec.eq_of_toNat_eq (le_antisymm hpc h256)
    exact .inl ⟨rfl, he, .inl (le_antisymm hpc h256)⟩
  | unknownOpcode hlt hop => exact .inr (.inl ⟨rfl, rfl, hlt, hop⟩)
  | op1FetchFault h255 hop => exact .inl ⟨rfl, rfl, .inr (.inl ⟨h255, hop⟩)⟩
  | op2FetchFault h254 hop => exact .inl ⟨rfl, rfl, .inr (.inr ⟨h254, hop⟩)⟩
  | op1IndexFault2 hlt hop hi =>
    refine .inr (.inr (.inl ⟨rfl, rfl, hi, by omega, ?_⟩))
    simp only [List.mem_cons, List.not_mem_nil, or_false] at hop
    rcases hop with hop | hop
    · exact .inl ⟨hop, hlt⟩
    · exact .inr (.inr (.inl ⟨hop, hlt⟩))
  | op1IndexFault1 hlt hop hi =>
    refine .inr (.inr (.inl ⟨rfl, rfl, hi, hlt, ?_⟩))
    simp only [List.mem_cons, List.not_mem_nil, or_false] at hop
    rcases hop with (hop | hop) | hop | hop
    · exact .inr (.inl hop)
    · exact .inr (.inr (.inr (.inl hop)))
    · exact .inr (.inr (.inr (.inr (.inl hop))))
    · exact .inr (.inr (.inr (.inr (.inr hop))))
  | op2IndexFault hlt hop h1 hi => exact .inr (.inr (.inr ⟨rfl, rfl, h1, hi, hlt, hop⟩))
  | _ => simp [hr] at ht

end Sys2Proof.Machine
end

section
/-! The fetch and the list decoder (41_execution_engine.md section 2, 30_encoding.md section 1): a step fetches what the
bytes from `pc` decode to, and what it reads of memory are the addresses it drives. -/

namespace Sys2Proof.Machine

/-! ### The bytes from `pc` -/

theorem codeBytes_length (s : State) : (codeBytes s).length = 256 - s.pc.toNat := by
  simp [codeBytes]

/-- The first `k` bytes from `pc`, when that many are in memory. -/
theorem codeBytes_prefix {s : State} {k : Nat} (h : s.pc.toNat + k ≤ 256) :
    ∃ rest, codeBytes s = (List.range k).map (fun j => Memory.byteAt s.mem (s.pc.toNat + j)) ++ rest := by
  have hk : 256 - s.pc.toNat = k + (256 - s.pc.toNat - k) := by omega
  exact ⟨_, by rw [codeBytes, hk, List.range_add, List.map_append]⟩

theorem codeBytes_past_end {s : State} (h : 256 ≤ s.pc.toNat) : codeBytes s = [] :=
  List.eq_nil_of_length_eq_zero (by rw [codeBytes_length]; omega)

theorem codeBytes_at_255 {s : State} (h : s.pc.toNat = 255) : codeBytes s = [opcAt s] := by
  have h1 : 256 - s.pc.toNat = 1 := by omega
  rw [codeBytes, h1]
  rfl

theorem codeBytes_at_254 {s : State} (h : s.pc.toNat = 254) : codeBytes s = [opcAt s, op1At s] := by
  have h2 : 256 - s.pc.toNat = 2 := by omega
  rw [codeBytes, h2]
  rfl

theorem codeBytes_f0 {s : State} (h : s.pc.toNat < 256) : ∃ rest, codeBytes s = opcAt s :: rest :=
  codeBytes_prefix (k := 1) (by omega)

theorem codeBytes_f1 {s : State} (h : s.pc.toNat < 255) : ∃ rest, codeBytes s = opcAt s :: op1At s :: rest :=
  codeBytes_prefix (k := 2) (by omega)

theorem codeBytes_f2 {s : State} (h : s.pc.toNat < 254) :
    ∃ rest, codeBytes s = opcAt s :: op1At s :: op2At s :: rest :=
  codeBytes_prefix (k := 3) (by omega)

/-! ### The fetch is the decoder on the bytes from `pc` -/

/-- What a fetch makes of the decoder's answer: a byte that is missing lies at 256, the end of memory (log 23). -/
def fetchResult : Except DecodeError (Instr × List Byte) → Except CoreError Instr
  | .ok (i, _) => .ok i
  | .error (.unknownOpcode opc) => .error (.unknownOpcode opc)
  | .error (.missingByte _) => .error (.address 256#9)

theorem fetchInstr_eq_fetchResult {s : State} (hpc : s.pc.toNat ≤ 256) :
    fetchInstr s = fetchResult (decode (codeBytes s)) := by
  rcases fetchInstr_cases s with ⟨h256, e⟩ | ⟨hlt, ⟨hd, e⟩ | ⟨i, hd, e⟩ | ⟨mk, hd, ⟨h255, e⟩ | ⟨hlt1, e⟩⟩ |
      ⟨mk, hd, ⟨h254, e⟩ | ⟨hlt2, e⟩⟩⟩
  · have he : s.pc = 256#9 := BitVec.eq_of_toNat_eq (le_antisymm hpc h256)
    rw [e, codeBytes_past_end h256, he]
    rfl
  · obtain ⟨rest, hc⟩ := codeBytes_f0 hlt
    rw [e, hc, decode_unknown hd]
    rfl
  · obtain ⟨rest, hc⟩ := codeBytes_f0 hlt
    rw [e, hc, decode_cons hd]
    rfl
  · rw [e, codeBytes_at_255 h255, decode_cons hd]
    rfl
  · obtain ⟨rest, hc⟩ := codeBytes_f1 hlt1
    rw [e, hc, decode_cons hd]
    rfl
  · rcases Nat.lt_or_ge s.pc.toNat 255 with h | h
    · rw [e, codeBytes_at_254 (by omega), decode_cons hd]
      rfl
    · rw [e, codeBytes_at_255 (by omega), decode_cons hd]
      rfl
  · obtain ⟨rest, hc⟩ := codeBytes_f2 hlt2
    rw [e, hc, decode_cons hd]
    rfl

/-- Only a `pc` in memory has bytes to decode. -/
theorem pc_lt_of_decode_ok {s : State} {i : Instr} {rest : List Byte} (h : decode (codeBytes s) = .ok (i, rest)) :
    s.pc.toNat < 256 := by
  by_contra hpc
  rw [codeBytes_past_end (by omega)] at h
  cases h

theorem pc_lt_of_decode_unknown {s : State} {opc : Byte} (h : decode (codeBytes s) = .error (.unknownOpcode opc)) :
    s.pc.toNat < 256 := by
  by_contra hpc
  rw [codeBytes_past_end (by omega)] at h
  cases h

theorem step_of_decode {s : State} {i : Instr} {rest : List Byte} (hr : s.runState = .running)
    (h : decode (codeBytes s) = .ok (i, rest)) : step s = exec i s :=
  step_of_fetch_ok hr (by rw [fetchInstr_eq_fetchResult (pc_lt_of_decode_ok h).le, h]; rfl)

/-- Settles O4, by the fetch as the decoder on the bytes from `pc`. -/
theorem stepRunsDecodedInstruction : Obligations.StepRunsDecodedInstruction := by
  unfold Obligations.StepRunsDecodedInstruction
  exact fun _ _ _ => step_of_decode

theorem raises_step_of_fetch_error {s : State} {e : CoreError} (hr : s.runState = .running)
    (h : fetchInstr s = .error e) : Raises (step s) s e := by
  rw [step_of_fetch_error hr h]
  exact raises_raise s e

/-- Settles O5, by the fetch as the decoder on the bytes from `pc`. -/
theorem stepFaultsWhereNothingDecodes : Obligations.StepFaultsWhereNothingDecodes := by
  unfold Obligations.StepFaultsWhereNothingDecodes
  refine fun s hr => ⟨fun opc h => raises_step_of_fetch_error hr ?_, fun n h hpc => raises_step_of_fetch_error hr ?_⟩
  · rw [fetchInstr_eq_fetchResult (pc_lt_of_decode_unknown h).le, h]
    rfl
  · rw [fetchInstr_eq_fetchResult hpc, h]
    rfl

/-! ### A word placed at `pc`, and a byte written anywhere -/

/-- The three bytes of a word placed at `pc` are the first that the next step fetches. -/
theorem codeBytes_withFetchWord {s : State} (hm : Memory.wf s.mem = true) (hpc : s.pc.toNat ≤ 253) (nbits w : Nat) :
    ∃ rest, codeBytes (s.withFetchWord nbits w) = tableBytes nbits w ++ rest := by
  have hfit : s.pc.toNat + (tableBytes nbits w).length ≤ 256 := Nat.add_le_add_right hpc 3
  obtain ⟨rest, hc⟩ := codeBytes_f2 (s := s.withFetchWord nbits w) (Nat.lt_succ_of_le hpc)
  refine ⟨rest, hc.trans ?_⟩
  have hbyte : ∀ (k : Nat) (b : Byte), (tableBytes nbits w)[k]? = some b →
      Memory.byteAt (s.withFetchWord nbits w).mem (s.pc.toNat + k) = b :=
    fun _ _ => Memory.byteAt_storeList_of_getElem? hm hfit
  have h0 : opcAt (s.withFetchWord nbits w) = _ := hbyte 0 _ rfl
  have h1 : op1At (s.withFetchWord nbits w) = _ := hbyte 1 _ rfl
  have h2 : op2At (s.withFetchWord nbits w) = _ := hbyte 2 _ rfl
  rw [h0, h1, h2]
  rfl

theorem decode_of_decodeTableWord {nbits w : Nat} {i : Instr} (h : decodeTableWord nbits w = some i) :
    ∃ rest, decode (tableBytes nbits w) = .ok (i, rest) := by
  unfold decodeTableWord at h
  split at h
  case h_1 j rest e =>
    obtain rfl : j = i := Option.some.inj h
    exact ⟨rest, e⟩
  case h_2 => cases h

/-- Settles O7: the placed word is the encoding of its instruction and what follows it in memory is never looked at. -/
theorem placedWordIsRunNext : Obligations.PlacedWordIsRunNext := by
  unfold Obligations.PlacedWordIsRunNext
  intro s nbits w i hr hm hpc hw
  obtain ⟨tail, ht⟩ := decode_of_decodeTableWord hw
  obtain ⟨rest, hc⟩ := codeBytes_withFetchWord hm hpc nbits w
  refine step_of_decode (rest := tail ++ rest) hr ?_
  rw [hc, eq_encode_append_of_decode ht, List.append_assoc, decode_encode_append]

/-- What the step does with an opcode of format F1, at every address of memory. -/
theorem step_f1_rule {s : State} {mk : Byte → Instr} (hr : s.runState = .running)
    (hd : dispatch (opcAt s) = some (.f1 mk)) :
    (s.pc.toNat < 255 → step s = exec (mk (op1At s)) s) ∧ (s.pc.toNat = 255 → Raises (step s) s (.address 256#9)) :=
  ⟨fun h => step_f1 hr h hd, fun h => raises_step_of_fetch_error hr (fetchInstr_f1_end h hd)⟩

/-- What the step does with an opcode of format F2, at every address of memory. -/
theorem step_f2_rule {s : State} {mk : Byte → Byte → Instr} (hr : s.runState = .running) (hpc : s.pc.toNat < 256)
    (hd : dispatch (opcAt s) = some (.f2 mk)) :
    (s.pc.toNat < 254 → step s = exec (mk (op1At s) (op2At s)) s) ∧
      (254 ≤ s.pc.toNat → Raises (step s) s (.address 256#9)) :=
  ⟨fun h => step_f2 hr h hd, fun h => raises_step_of_fetch_error hr (fetchInstr_f2_end hpc h hd)⟩

/-- What a completed write leaves: `pc` and STATE as they were, and the byte at its address alone replaced (R33). -/
theorem memWrite_ok_reads {s t : State} {a : Addr} {v : Byte} (hm : Memory.wf s.mem = true)
    (h : memWrite s a v = .ok t) :
    t.pc = s.pc ∧ t.runState = s.runState ∧
      ∀ c, Memory.byteAt t.mem c = if a.toNat = c then v else Memory.byteAt s.mem c := by
  rcases memWrite_cases s a v with ⟨-, e⟩ | ⟨-, e⟩ <;> rw [e] at h <;> cases h
  refine ⟨rfl, rfl, fun c => ?_⟩
  simp only [State.setMem_mem, Memory.byteAt_store hm, eq_comm]

/-- Settles O43: the written memory reads the new byte at its address and the old ones elsewhere, and the step goes by
the format of the opcode then at `pc`. -/
theorem aWriteIsSeenByTheNextFetch : Obligations.AWriteIsSeenByTheNextFetch := by
  unfold Obligations.AWriteIsSeenByTheNextFetch
  intro s t a v hr hm hpc hw p byte runs1 runs2
  obtain ⟨htpc, htr, hbyte⟩ := memWrite_ok_reads hm hw
  rw [← htr] at hr
  rw [← htpc] at hpc
  have h0 : opcAt t = byte 0 := by rw [opcAt, htpc]; exact hbyte _
  have h1 : op1At t = byte 1 := by rw [op1At, htpc]; exact hbyte _
  have h2 : op2At t = byte 2 := by rw [op2At, htpc]; exact hbyte _
  have hruns1 : ∀ mk, dispatch (byte 0) = some (.f1 mk) → runs1 mk := fun mk hd => by
    have hrule := step_f1_rule hr (h0.symm ▸ hd)
    rwa [htpc, h1] at hrule
  have hruns2 : ∀ mk, dispatch (byte 0) = some (.f2 mk) → runs2 mk := fun mk hd => by
    have hrule := step_f2_rule hr hpc (h0.symm ▸ hd)
    rwa [htpc, h1, h2] at hrule
  refine ⟨fun h => step_halt hr hpc (h0.trans h), fun h => hruns2 _ (by rw [h]; rfl),
    fun h => hruns1 _ (by rw [h]; rfl), fun h => hruns2 _ (by rw [h]; rfl), fun h => hruns1 _ (by rw [h]; rfl),
    fun h => hruns1 _ (by rw [h]; rfl), fun h => hruns1 _ (by rw [h]; rfl), fun h => ?_⟩
  rw [← h0] at h ⊢
  exact raises_step_of_fetch_error hr (fetchInstr_unknown hpc (dispatch_eq_none_of_not_mem h))

end Sys2Proof.Machine
end

section
/-! The memory port of a step (10_state.md section 6, 41_execution_engine.md section 3): which addresses it drives, and
that nothing else of memory is read. -/

namespace Sys2Proof.Machine

/-- How many addresses a step drives: the instruction's length, 1 for an unknown opcode, cut at the end of memory. -/
def fetchCount (s : State) : Nat := min (256 - s.pc.toNat) ((lengthFromOpcode (opcAt s)).getD 1)

theorem fetchCount_unknown {s : State} (hd : dispatch (opcAt s) = none) : fetchCount s = min (256 - s.pc.toNat) 1 := by
  simp [fetchCount, lengthFromOpcode, hd]

theorem fetchCount_f0 {s : State} {i : Instr} (hd : dispatch (opcAt s) = some (.f0 i)) :
    fetchCount s = min (256 - s.pc.toNat) 1 := by
  simp [fetchCount, lengthFromOpcode, hd]

theorem fetchCount_f1 {s : State} {mk : Byte → Instr} (hd : dispatch (opcAt s) = some (.f1 mk)) :
    fetchCount s = min (256 - s.pc.toNat) 2 := by
  simp [fetchCount, lengthFromOpcode, hd]

theorem fetchCount_f2 {s : State} {mk : Byte → Byte → Instr} (hd : dispatch (opcAt s) = some (.f2 mk)) :
    fetchCount s = min (256 - s.pc.toNat) 3 := by
  simp [fetchCount, lengthFromOpcode, hd]

theorem fetchCount_pos {s : State} (hpc : s.pc.toNat < 256) : 0 < fetchCount s := by
  cases hd : dispatch (opcAt s) with
  | none => rw [fetchCount_unknown hd]; omega
  | some handler =>
    cases handler with
    | f0 i => rw [fetchCount_f0 hd]; omega
    | f1 mk => rw [fetchCount_f1 hd]; omega
    | f2 mk => rw [fetchCount_f2 hd]; omega

/-! ### The addresses driven -/

/-- The addresses driven are consecutive from `pc`. -/
theorem fetchAddrs_eq {s : State} (hr : s.runState = .running) :
    fetchAddrs s = (List.range (fetchCount s)).map (fun k => s.pc + BitVec.ofNat 9 k) := by
  rcases Nat.lt_or_ge s.pc.toNat 256 with hpc | hpc
  · have h1 : (s.pc + 1#9).toNat = s.pc.toNat + 1 := toNat_add_one (by omega)
    have h2 : (s.pc + 2#9).toNat = s.pc.toNat + 2 := toNat_add_two (by omega)
    cases hd : dispatch (opcAt s) with
    | none =>
      have hc : fetchCount s = 1 := by rw [fetchCount_unknown hd]; omega
      simp [fetchAddrs, hr, hpc, hd, hc]
    | some handler =>
      cases handler with
      | f0 i =>
        have hc : fetchCount s = 1 := by rw [fetchCount_f0 hd]; omega
        simp [fetchAddrs, hr, hpc, hd, hc]
      | f1 mk =>
        rcases Nat.lt_or_ge (s.pc.toNat + 1) 256 with h | h
        · have hc : fetchCount s = 2 := by rw [fetchCount_f1 hd]; omega
          simp [fetchAddrs, hr, hpc, hd, hc, h1, h, List.range_succ]
        · have hc : fetchCount s = 1 := by rw [fetchCount_f1 hd]; omega
          simp [fetchAddrs, hr, hpc, hd, hc, h1, Nat.not_lt.2 h]
      | f2 mk =>
        rcases Nat.lt_or_ge (s.pc.toNat + 1) 256 with h | h
        · rcases Nat.lt_or_ge (s.pc.toNat + 2) 256 with h' | h'
          · have hc : fetchCount s = 3 := by rw [fetchCount_f2 hd]; omega
            simp [fetchAddrs, hr, hpc, hd, hc, h1, h2, h, h', List.range_succ]
          · have hc : fetchCount s = 2 := by rw [fetchCount_f2 hd]; omega
            simp [fetchAddrs, hr, hpc, hd, hc, h1, h2, h, Nat.not_lt.2 h', List.range_succ]
        · have hc : fetchCount s = 1 := by rw [fetchCount_f2 hd]; omega
          have h' : 256 ≤ s.pc.toNat + 2 := by omega
          simp [fetchAddrs, hr, hpc, hd, hc, h1, h2, Nat.not_lt.2 h, Nat.not_lt.2 h']
  · have hc : fetchCount s = 0 := by rw [fetchCount]; omega
    simp [fetchAddrs, Nat.not_lt.2 hpc, hc]

theorem lt_of_lt_fetchCount {s : State} {k : Nat} (hk : k < fetchCount s) : s.pc.toNat + k < 256 := by
  rw [fetchCount] at hk
  omega

/-- The `k`-th address driven does not wrap. -/
theorem toNat_fetchAddr {s : State} {k : Nat} (hk : k < fetchCount s) :
    (s.pc + BitVec.ofNat 9 k).toNat = s.pc.toNat + k := by
  have := lt_of_lt_fetchCount hk
  rw [BitVec.toNat_add, BitVec.toNat_ofNat]
  omega

theorem opcodeByte (i : Instr) : Laws.OpcodeByte.Statement i := by
  cases i with
  | halt => exact Laws.OpcodeByte.halt
  | loadImmediate op1 op2 => exact Laws.OpcodeByte.loadImmediate op1 op2
  | printRegister op1 => exact Laws.OpcodeByte.printRegister op1
  | compare op1 op2 => exact Laws.OpcodeByte.compare op1 op2
  | jump op1 => exact Laws.OpcodeByte.jump op1
  | jumpIfEqual op1 => exact Laws.OpcodeByte.jumpIfEqual op1
  | jumpIfNotEqual op1 => exact Laws.OpcodeByte.jumpIfNotEqual op1

/-- Where an instruction decodes, its opcode byte gives its length and all of it lies in memory. -/
theorem fetchCount_of_decode {s : State} {i : Instr} {rest : List Byte} (h : decode (codeBytes s) = .ok (i, rest)) :
    fetchCount s = (encode i).length := by
  have hbytes : codeBytes s = encode i ++ rest := eq_encode_append_of_decode h
  have hfit : (encode i).length ≤ 256 - s.pc.toNat := by
    rw [← codeBytes_length, hbytes, List.length_append]
    omega
  have hhead : (encode i).headD 0#8 = opcAt s := by
    obtain ⟨tail, hc⟩ := codeBytes_f0 (pc_lt_of_decode_ok h)
    rw [hbytes] at hc
    cases i <;> exact (List.cons.inj hc).1
  rw [fetchCount, ← hhead, (opcodeByte i).2, Option.getD_some, min_eq_right hfit]

/-- Settles O36: the addresses driven are `fetchCount` many, consecutive from `pc` and in memory. -/
theorem fetchesAscendFromThePc : Obligations.FetchesAscendFromThePc := by
  unfold Obligations.FetchesAscendFromThePc
  refine fun s hr => ⟨fun k a h => ?_, fun i rest h => ?_, fun hpc hlen => ?_⟩
  · rw [fetchAddrs_eq hr, List.getElem?_map, Option.map_eq_some_iff] at h
    obtain ⟨j, hj, rfl⟩ := h
    obtain ⟨hk, rfl⟩ := List.getElem?_eq_some_iff.1 hj
    rw [List.length_range] at hk
    rw [List.getElem_range, toNat_fetchAddr hk]
    exact ⟨rfl, lt_of_lt_fetchCount hk⟩
  · rw [fetchAddrs_eq hr, List.length_map, List.length_range, fetchCount_of_decode h]
  · have hc : fetchCount s = 1 := by
      rw [fetchCount, hlen, Option.getD_none]
      omega
    simp [memAddrPort, fetchAddrs_eq hr, hc]

/-! ### Nothing else of memory is read -/

/-- Memories that agree where the step drives its port agree on the bytes it fetches. -/
theorem byteAt_eq_of_agree {s : State} {m : Memory} (hr : s.runState = .running)
    (hm : ∀ a ∈ fetchAddrs s, Memory.byteAt m a.toNat = Memory.byteAt s.mem a.toNat) {k : Nat}
    (hk : k < fetchCount s) : Memory.byteAt m (s.pc.toNat + k) = Memory.byteAt s.mem (s.pc.toNat + k) := by
  rw [← toNat_fetchAddr hk]
  refine hm _ ?_
  rw [fetchAddrs_eq hr]
  exact List.mem_map_of_mem (List.mem_range.2 hk)

/-- A fetch depends on memory only through the bytes at the addresses it drives. -/
theorem fetchInstr_setMem {s : State} {m : Memory} (hr : s.runState = .running)
    (hm : ∀ a ∈ fetchAddrs s, Memory.byteAt m a.toNat = Memory.byteAt s.mem a.toNat) :
    fetchInstr (s.setMem m) = fetchInstr s := by
  have hagree : ∀ k, k < fetchCount s → Memory.byteAt m (s.pc.toNat + k) = Memory.byteAt s.mem (s.pc.toNat + k) :=
    fun _ => byteAt_eq_of_agree hr hm
  rcases fetchInstr_cases s with ⟨h256, e⟩ | ⟨hlt, hcases⟩
  · exact (fetchInstr_past_end (s := s.setMem m) h256).trans e.symm
  have h0 : opcAt (s.setMem m) = opcAt s := hagree 0 (fetchCount_pos hlt)
  have hd0 : dispatch (opcAt (s.setMem m)) = dispatch (opcAt s) := congrArg dispatch h0
  rcases hcases with ⟨hd, e⟩ | ⟨i, hd, e⟩ | ⟨mk, hd, ⟨h255, e⟩ | ⟨hlt1, e⟩⟩ | ⟨mk, hd, ⟨h254, e⟩ | ⟨hlt2, e⟩⟩
  · rw [e, fetchInstr_unknown (s := s.setMem m) hlt (hd0.trans hd)]
    exact congrArg _ (congrArg _ h0)
  · exact (fetchInstr_f0 (s := s.setMem m) hlt (hd0.trans hd)).trans e.symm
  · exact (fetchInstr_f1_end (s := s.setMem m) h255 (hd0.trans hd)).trans e.symm
  · have h1 : op1At (s.setMem m) = op1At s := hagree 1 (by rw [fetchCount_f1 hd]; omega)
    rw [e, fetchInstr_f1 (s := s.setMem m) hlt1 (hd0.trans hd)]
    exact congrArg _ (congrArg _ h1)
  · exact (fetchInstr_f2_end (s := s.setMem m) hlt h254 (hd0.trans hd)).trans e.symm
  · have h1 : op1At (s.setMem m) = op1At s := hagree 1 (by rw [fetchCount_f2 hd]; omega)
    have h2 : op2At (s.setMem m) = op2At s := hagree 2 (by rw [fetchCount_f2 hd]; omega)
    rw [e, fetchInstr_f2 (s := s.setMem m) hlt2 (hd0.trans hd)]
    exact congrArg _ (congrArg₂ _ h1 h2)

/-- JUMP reads no memory; the taken conditional jumps share this. -/
theorem execJump_setMem {s t : State} {r : Byte} (m : Memory) (h : exec (.jump r) s = .next t) :
    exec (.jump r) (s.setMem m) = .next (t.setMem m) := by
  rcases Nat.lt_or_ge r.toNat 8 with hr | hr
  · rw [exec_jump_legal hr] at h ⊢; cases h; rfl
  · rw [exec_jump_illegal hr] at h ⊢; cases h; rfl

/-- No handler reads memory. -/
theorem exec_setMem {s t : State} {i : Instr} (m : Memory) (h : exec i s = .next t) :
    exec i (s.setMem m) = .next (t.setMem m) := by
  cases i with
  | halt => cases h; rfl
  | loadImmediate op1 op2 =>
    rcases Nat.lt_or_ge op1.toNat 8 with h1 | h1
    · rw [exec_loadImmediate_legal h1] at h ⊢; cases h; rfl
    · rw [exec_loadImmediate_illegal h1] at h ⊢; cases h; rfl
  | printRegister op1 =>
    rcases Nat.lt_or_ge op1.toNat 8 with h1 | h1
    · rw [exec_printRegister_legal h1] at h ⊢; cases h; rfl
    · rw [exec_printRegister_illegal h1] at h ⊢; cases h; rfl
  | compare op1 op2 =>
    rcases Nat.lt_or_ge op1.toNat 8 with h1 | h1
    · rcases Nat.lt_or_ge op2.toNat 8 with h2 | h2
      · rw [exec_compare_legal h1 h2] at h ⊢; cases h; rfl
      · rw [exec_compare_illegal_op2 h1 h2] at h ⊢; cases h; rfl
    · rw [exec_compare_illegal_op1 h1] at h ⊢; cases h; rfl
  | jump op1 => exact execJump_setMem m h
  | jumpIfEqual op1 =>
    cases hE : flagE s.fl with
    | true =>
      exact (exec_jumpIfEqual_taken (s := s.setMem m) hE op1).trans
        (execJump_setMem m ((exec_jumpIfEqual_taken hE op1).symm.trans h))
    | false =>
      rw [exec_jumpIfEqual_untaken hE] at h
      cases h
      exact exec_jumpIfEqual_untaken (s := s.setMem m) hE op1
  | jumpIfNotEqual op1 =>
    cases hE : flagE s.fl with
    | true =>
      rw [exec_jumpIfNotEqual_untaken hE] at h
      cases h
      exact exec_jumpIfNotEqual_untaken (s := s.setMem m) hE op1
    | false =>
      exact (exec_jumpIfNotEqual_taken (s := s.setMem m) hE op1).trans
        (execJump_setMem m ((exec_jumpIfNotEqual_taken hE op1).symm.trans h))

/-- Settles O35: the fetch depends on the bytes it drives the addresses of, and no handler reads memory. -/
theorem stepDependsOnlyOnFetchedBytes : Obligations.StepDependsOnlyOnFetchedBytes := by
  unfold Obligations.StepDependsOnlyOnFetchedBytes
  intro s t m hm h
  obtain ⟨hr, ⟨e, hf, rfl⟩ | ⟨i, hf, he⟩⟩ := step_next_cases h
  · exact step_of_fetch_error (s := s.setMem m) hr ((fetchInstr_setMem hr hm).trans hf)
  · exact (step_of_fetch_ok (s := s.setMem m) hr ((fetchInstr_setMem hr hm).trans hf)).trans (exec_setMem m he)

end Sys2Proof.Machine
end

section
/-! The seven meanings (42_halt.md to 46_jumps.md): each handler completes on legal registers, with its result and its
frame. -/

namespace Sys2Proof.Machine

/-- Settles O14: the handler has one outcome, which writes `pc` and STATE. -/
theorem haltCompletes : Obligations.HaltCompletes := by
  unfold Obligations.HaltCompletes
  exact fun s => ⟨_, execHalt_eq s, rfl, rfl, fun _ => rfl, rfl, ⟨rfl, rfl, rfl⟩, rfl, fun _ => rfl⟩

/-! ### The registers after a write -/

theorem reg_set_same (s : State) {i : Byte} (v : Byte) (h : i.toNat < 8) :
    (s.setRegs (s.regs.set i.toNat v h)).reg ⟨i.toNat, h⟩ = v := by
  rw [reg_set, if_pos rfl]

theorem sameRegsExcept_set (s : State) {i : Byte} (v : Byte) (h : i.toNat < 8) :
    SameRegsExcept ⟨i.toNat, h⟩ s (s.setRegs (s.regs.set i.toNat v h)) := by
  intro j hj
  rw [reg_set, if_neg (fun hv => hj (Fin.ext hv))]

/-- Settles O15, by the handler with a legal register. -/
theorem loadImmediateCompletes : Obligations.LoadImmediateCompletes := by
  unfold Obligations.LoadImmediateCompletes
  exact fun s op1 op2 h => ⟨_, exec_loadImmediate_legal h op2 s, reg_set_same s op2 h, sameRegsExcept_set s op2 h, rfl,
    rfl, rfl, ⟨rfl, rfl, rfl⟩, rfl, fun _ => rfl⟩

/-- Settles O16, by the handler with a legal register. -/
theorem printRegisterCompletes : Obligations.PrintRegisterCompletes := by
  unfold Obligations.PrintRegisterCompletes
  exact fun s op1 h => ⟨_, exec_printRegister_legal h s, rfl, rfl, fun _ => rfl, rfl, rfl, ⟨rfl, rfl, rfl⟩,
    fun _ => rfl⟩

/-! ### The flags of a comparison (40_alu.md R74) -/

theorem compareFlags_eq {a b : Byte} (h : a.toNat = b.toNat) : compareFlags a b = 0x01#8 := by
  rcases compareFlags_cases a b with ⟨-, e⟩ | ⟨h', -⟩ | ⟨h', -⟩
  · exact e
  · omega
  · omega

theorem compareFlags_lt {a b : Byte} (h : a.toNat < b.toNat) : compareFlags a b = 0x04#8 := by
  rcases compareFlags_cases a b with ⟨h', -⟩ | ⟨-, e⟩ | ⟨h', -⟩
  · omega
  · exact e
  · omega

theorem compareFlags_gt {a b : Byte} (h : b.toNat < a.toNat) : compareFlags a b = 0x02#8 := by
  rcases compareFlags_cases a b with ⟨h', -⟩ | ⟨h', -⟩ | ⟨-, e⟩
  · omega
  · omega
  · exact e

theorem flagL_compareFlags (a b : Byte) : flagL (compareFlags a b) = true ↔ a.toNat < b.toNat := by
  rcases compareFlags_cases a b with ⟨h, e⟩ | ⟨h, e⟩ | ⟨h, e⟩
  · simp [e, flagL, h]
  · simp [e, flagL, h]
  · simp [e, flagL, h.le]

theorem flagG_compareFlags (a b : Byte) : flagG (compareFlags a b) = true ↔ b.toNat < a.toNat := by
  rcases compareFlags_cases a b with ⟨h, e⟩ | ⟨h, e⟩ | ⟨h, e⟩
  · simp [e, flagG, h]
  · simp [e, flagG, h.le]
  · simp [e, flagG, h]

/-- The bits of `FL` above E, G and L are 0 (D27). -/
theorem compareFlags_toNat_lt (a b : Byte) : (compareFlags a b).toNat < 8 := by
  rcases compareFlags_cases a b with ⟨-, e⟩ | ⟨-, e⟩ | ⟨-, e⟩ <;> simp [e]

/-- Settles O17, by the handler with legal registers and the three orders of the values compared. -/
theorem compareCompletes : Obligations.CompareCompletes := by
  unfold Obligations.CompareCompletes
  exact fun s op1 op2 h1 h2 => ⟨_, exec_compare_legal h1 h2 s, compareFlags_eq, compareFlags_lt, compareFlags_gt, rfl,
    fun _ => rfl, rfl, ⟨rfl, rfl, rfl⟩, rfl, fun _ => rfl⟩

/-! ### The jumps -/

/-- Settles O18, by the handler with a legal register. -/
theorem jumpCompletes : Obligations.JumpCompletes := by
  unfold Obligations.JumpCompletes
  exact fun s op1 h => ⟨_, exec_jump_legal h s, toNat_zext9 _, fun _ => rfl, rfl, rfl, ⟨rfl, rfl, rfl⟩, rfl,
    fun _ => rfl⟩

/-- Settles O19: taken it is JUMP, untaken it advances. -/
theorem jumpIfEqualCompletes : Obligations.JumpIfEqualCompletes := by
  unfold Obligations.JumpIfEqualCompletes
  refine fun s op1 => ⟨fun h hE => ?_, fun hE => ?_⟩
  · rw [exec_jumpIfEqual_taken hE]
    exact jumpCompletes s op1 h
  · exact ⟨_, exec_jumpIfEqual_untaken hE op1, rfl, fun _ => rfl, rfl, rfl, ⟨rfl, rfl, rfl⟩, rfl, fun _ => rfl⟩

/-- Settles O20: taken it is JUMP, untaken it advances. -/
theorem jumpIfNotEqualCompletes : Obligations.JumpIfNotEqualCompletes := by
  unfold Obligations.JumpIfNotEqualCompletes
  refine fun s op1 => ⟨fun h hE => ?_, fun hE => ?_⟩
  · rw [exec_jumpIfNotEqual_taken hE]
    exact jumpCompletes s op1 h
  · exact ⟨_, exec_jumpIfNotEqual_untaken hE op1, rfl, fun _ => rfl, rfl, rfl, ⟨rfl, rfl, rfl⟩, rfl, fun _ => rfl⟩

/-- Settles O22: whole outcomes, by the flag. -/
theorem conditionalJumpsAreComplementary : Obligations.ConditionalJumpsAreComplementary := by
  unfold Obligations.ConditionalJumpsAreComplementary
  exact fun s op1 =>
    ⟨fun hE => ⟨exec_jumpIfEqual_taken hE op1, exec_jumpIfNotEqual_untaken hE op1⟩,
      fun hE => ⟨exec_jumpIfNotEqual_taken hE op1, exec_jumpIfEqual_untaken hE op1⟩⟩

/-! ### Well-formed instructions (30_encoding.md section 4) -/

@[simp] theorem isRegisterIndex_iff {i : Byte} : isRegisterIndex i = true ↔ i.toNat < 8 := by
  simp [isRegisterIndex]

/-- A JUMP through a legal register leaves STATE alone; the taken conditional jumps share this. -/
theorem exec_jump_runState {s t : State} {r : Byte} (hr : r.toNat < 8) (h : exec (.jump r) s = .next t) :
    t.runState = s.runState := by
  rw [exec_jump_legal hr] at h
  cases h
  rfl

/-- A well-formed instruction leaves STATE alone, but for HALT. -/
theorem exec_wellFormed_runState {s t : State} {i : Instr} (hw : i.wellFormed = true) (h : exec i s = .next t) :
    t.runState = s.runState ∨ t.runState = .halted := by
  cases i with
  | halt => cases h; exact .inr rfl
  | loadImmediate op1 op2 => rw [exec_loadImmediate_legal (isRegisterIndex_iff.1 hw)] at h; cases h; exact .inl rfl
  | printRegister op1 => rw [exec_printRegister_legal (isRegisterIndex_iff.1 hw)] at h; cases h; exact .inl rfl
  | compare op1 op2 =>
    obtain ⟨h1, h2⟩ : isRegisterIndex op1 = true ∧ isRegisterIndex op2 = true := Bool.and_eq_true_iff.1 hw
    rw [exec_compare_legal (isRegisterIndex_iff.1 h1) (isRegisterIndex_iff.1 h2)] at h
    cases h
    exact .inl rfl
  | jump op1 => exact .inl (exec_jump_runState (isRegisterIndex_iff.1 hw) h)
  | jumpIfEqual op1 =>
    cases hE : flagE s.fl with
    | true => rw [exec_jumpIfEqual_taken hE] at h; exact .inl (exec_jump_runState (isRegisterIndex_iff.1 hw) h)
    | false => rw [exec_jumpIfEqual_untaken hE] at h; cases h; exact .inl rfl
  | jumpIfNotEqual op1 =>
    cases hE : flagE s.fl with
    | true => rw [exec_jumpIfNotEqual_untaken hE] at h; cases h; exact .inl rfl
    | false => rw [exec_jumpIfNotEqual_taken hE] at h; exact .inl (exec_jump_runState (isRegisterIndex_iff.1 hw) h)

/-- Settles O21: STATE stays RUNNING or becomes HALTED. -/
theorem wellFormedInstructionsDoNotFault : Obligations.WellFormedInstructionsDoNotFault := by
  unfold Obligations.WellFormedInstructionsDoNotFault
  intro i s t hw hr h
  rcases exec_wellFormed_runState hw h with ht | ht
  · simp [ht, hr]
  · simp [ht]

end Sys2Proof.Machine
end

section
/-! The instruction rules from the bytes in memory (42_halt.md to 46_jumps.md): each clause is one effect of the step,
or the fetch that fails at the end of memory. -/

namespace Sys2Proof.Machine

/-- A fault effect is the fault entry, with its frame. -/
theorem raises_of_effect {s : State} {e : CoreError} (hr : s.runState = .running) (h : StepEffect s (s.raise e)) :
    Raises (step s) s e := by
  rw [step_of_effect hr h]
  exact raises_raise s e

/-- One past the end of memory the opcode fetch faults (20_memory.md R32; D6). -/
theorem raises_step_at_256 {s : State} (hr : s.runState = .running) (hpc : s.pc = 256#9) :
    Raises (step s) s (.address 256#9) := by
  have h := raises_of_effect hr (.opcodeFetchFault (by rw [hpc]; decide))
  rwa [hpc] at h

/-- The step after an instruction that ended memory: `pc` is 256 and the fetch faults. -/
theorem raises_step_of_toNat_pc {s : State} (hr : s.runState = .running) (hpc : s.pc.toNat = 256) :
    Raises (step s) s (.address 256#9) :=
  raises_step_at_256 hr (BitVec.eq_of_toNat_eq hpc)

/-- Settles O23: the step that halts, and the fetch fault at 256. -/
theorem haltRule : Obligations.HaltRule := by
  unfold Obligations.HaltRule
  refine fun s hr => ⟨fun hpc hop => ?_, raises_step_at_256 hr⟩
  exact ⟨_, step_of_effect hr (.halts hpc hop), rfl, rfl, fun _ => rfl, rfl, ⟨rfl, rfl, rfl⟩, rfl, fun _ => rfl⟩

/-- Settles O24: the fetch fault at 254 and 255, the index fault, and the load. -/
theorem loadImmediateRule : Obligations.LoadImmediateRule := by
  unfold Obligations.LoadImmediateRule
  intro s hr hpc hop
  have hd : dispatch (opcAt s) = some (.f2 .loadImmediate) := by rw [opcAt, hop]; rfl
  refine ⟨(step_f2_rule hr hpc hd).2, fun hlt op1 op2 h1 h2 => ?_⟩
  subst h1 h2
  refine ⟨fun hi => raises_of_effect hr (.op1IndexFault2 hlt (by simp [opcAt, hop]) hi), fun h => ?_⟩
  have htpc : (s.pc + 3#9).toNat = s.pc.toNat + 3 := toNat_add_three (by omega)
  exact ⟨_, step_of_effect hr (.loads hlt hop h), reg_set_same s _ h, sameRegsExcept_set s _ h, htpc, rfl, hr,
    ⟨rfl, rfl, rfl⟩, rfl, fun _ => rfl, fun h253 => raises_step_of_toNat_pc hr (htpc.trans (by rw [h253]))⟩

/-- A step that appends one value shows it on the port (R111). -/
theorem outPort_of_append {s t : State} {v : Byte} (h : t.out = s.out ++ [v]) : outPort s t = some v := by
  simp [outPort, h]

/-- Settles O25: the fetch fault at 255, the index fault, and the print. -/
theorem printRegisterFromMemory : Obligations.PrintRegisterFromMemory := by
  unfold Obligations.PrintRegisterFromMemory
  intro s hr hpc hop
  have hd : dispatch (opcAt s) = some (.f1 .printRegister) := by rw [opcAt, hop]; rfl
  refine ⟨(step_f1_rule hr hd).2, fun hlt op1 h1 => ?_⟩
  subst h1
  refine ⟨fun hi => raises_of_effect hr (.op1IndexFault1 hlt (.inl (by simp [opcAt, hop])) hi), fun h => ?_⟩
  have htpc : (s.pc + 2#9).toNat = s.pc.toNat + 2 := toNat_add_two (by omega)
  exact ⟨_, step_of_effect hr (.prints hlt hop h), rfl, outPort_of_append rfl, htpc, fun _ => rfl, rfl, hr,
    ⟨rfl, rfl, rfl⟩, fun _ => rfl, fun h254 => raises_step_of_toNat_pc hr (htpc.trans (by rw [h254]))⟩

/-- Settles O26: the fetch fault at 254 and 255, the two index faults in their order, and the comparison. -/
theorem compareFromMemory : Obligations.CompareFromMemory := by
  unfold Obligations.CompareFromMemory
  intro s hr hpc hop
  have hd : dispatch (opcAt s) = some (.f2 .compare) := by rw [opcAt, hop]; rfl
  refine ⟨(step_f2_rule hr hpc hd).2, fun hlt op1 op2 h1 h2 => ?_⟩
  subst h1 h2
  refine ⟨fun hi => raises_of_effect hr (.op1IndexFault2 hlt (by simp [opcAt, hop]) hi),
    fun h1 hi => raises_of_effect hr (.op2IndexFault hlt hop h1 hi), fun h1 h2 => ?_⟩
  exact ⟨_, step_of_effect hr (.compares hlt hop h1 h2), (flagE_compareFlags _ _).trans BitVec.toNat_inj.symm,
    flagL_compareFlags _ _, flagG_compareFlags _ _, compareFlags_toNat_lt _ _, toNat_add_three (by omega),
    fun _ => rfl, hr, ⟨rfl, rfl, rfl⟩, rfl, fun _ => rfl⟩

/-- A jump to the address it stands at changes nothing. -/
theorem setPc_zext9_self {s : State} {v : Byte} (h : v.toNat = s.pc.toNat) : s.setPc (zext9 v) = s := by
  have hpc : zext9 v = s.pc := BitVec.eq_of_toNat_eq ((toNat_zext9 v).trans h)
  rw [hpc]
  rfl

/-- Settles O27: the fetch fault at 255, the index fault, and the jump. -/
theorem jumpFromMemory : Obligations.JumpFromMemory := by
  unfold Obligations.JumpFromMemory
  intro s hr hpc hop
  have hd : dispatch (opcAt s) = some (.f1 .jump) := by rw [opcAt, hop]; rfl
  refine ⟨(step_f1_rule hr hd).2, fun hlt op1 h1 => ?_⟩
  subst h1
  refine ⟨fun hi => raises_of_effect hr (.op1IndexFault1 hlt (.inl (by simp [opcAt, hop])) hi), fun h => ?_⟩
  exact ⟨_, step_of_effect hr (.jumps hlt (.inl hop) h), toNat_zext9 _, fun _ => rfl, rfl, hr, ⟨rfl, rfl, rfl⟩, rfl,
    fun _ => rfl, setPc_zext9_self⟩

/-- Settles O28: what the two opcodes share is their format and when they are taken; the clauses follow from that. -/
theorem conditionalJumpsFromMemory : Obligations.ConditionalJumpsFromMemory := by
  unfold Obligations.ConditionalJumpsFromMemory
  intro s takenOn hr hpc hop
  obtain ⟨mk, hd⟩ : ∃ mk, dispatch (opcAt s) = some (.f1 mk) := by
    rw [opcAt, hop]
    cases takenOn with
    | true => exact ⟨_, rfl⟩
    | false => exact ⟨_, rfl⟩
  have htaken : flagE s.fl = takenOn →
      TakenAt s := by
    cases takenOn with
    | true => exact fun hE => .inl ⟨hop, hE⟩
    | false => exact fun hE => .inr ⟨hop, hE⟩
  have huntaken : flagE s.fl ≠ takenOn →
      UntakenAt s := by
    cases takenOn with
    | true => exact fun hE => .inl ⟨hop, eq_false_of_ne_true hE⟩
    | false => exact fun hE => .inr ⟨hop, eq_true_of_ne_false hE⟩
  refine ⟨(step_f1_rule hr hd).2, fun hlt op1 h1 => ?_⟩
  subst h1
  refine ⟨fun hE => ?_, fun hE hi => raises_of_effect hr (.op1IndexFault1 hlt (.inr (htaken hE)) hi), fun hE h => ?_⟩
  · have htpc : (s.pc + 2#9).toNat = s.pc.toNat + 2 := toNat_add_two (by omega)
    exact ⟨_, step_of_effect hr (.fallsThrough hlt (huntaken hE)), htpc, fun _ => rfl, rfl, hr, ⟨rfl, rfl, rfl⟩, rfl,
      fun _ => rfl, fun h254 => raises_step_of_toNat_pc hr (htpc.trans (by rw [h254]))⟩
  · exact ⟨_, step_of_effect hr (.jumps hlt (.inr (htaken hE)) h), toNat_zext9 _, fun _ => rfl, rfl, hr,
      ⟨rfl, rfl, rfl⟩, rfl, fun _ => rfl⟩

end Sys2Proof.Machine
end

section
/-! What a completed step did, by its opcode: of the effects, all but one are a fault entry or have another opcode. -/

namespace Sys2Proof.Machine

theorem StepEffect.halt_completed {s t : State} (h : StepEffect s t) (ht : t.runState ≠ .faulted)
    (hop : opcAt s = 0x01#8) : t = (s.setPc 0#9).setRunState .halted := by
  cases h with
  | halts => rfl
  | _ => simp_all

theorem StepEffect.loadImmediate_completed {s t : State} (h : StepEffect s t) (ht : t.runState ≠ .faulted)
    (hop : opcAt s = 0x82#8) : s.pc.toNat < 254 ∧ ∃ h1 : (op1At s).toNat < 8,
      t = (s.setRegs (s.regs.set (op1At s).toNat (op2At s) h1)).setPc (s.pc + 3#9) := by
  cases h with
  | loads hpc _ h1 => exact ⟨hpc, h1, rfl⟩
  | _ => simp_all

theorem StepEffect.printRegister_completed {s t : State} (h : StepEffect s t) (ht : t.runState ≠ .faulted)
    (hop : opcAt s = 0x47#8) : s.pc.toNat < 255 ∧ ∃ h1 : (op1At s).toNat < 8,
      t = (s.setOut (s.out ++ [s.reg ⟨(op1At s).toNat, h1⟩])).setPc (s.pc + 2#9) := by
  cases h with
  | prints hpc _ h1 => exact ⟨hpc, h1, rfl⟩
  | _ => simp_all

theorem StepEffect.compare_completed {s t : State} (h : StepEffect s t) (ht : t.runState ≠ .faulted)
    (hop : opcAt s = 0xA7#8) : s.pc.toNat < 254 ∧ ∃ (h1 : (op1At s).toNat < 8) (h2 : (op2At s).toNat < 8),
      t = (s.setFl (compareFlags (s.reg ⟨(op1At s).toNat, h1⟩) (s.reg ⟨(op2At s).toNat, h2⟩))).setPc (s.pc + 3#9) := by
  cases h with
  | compares hpc _ h1 h2 => exact ⟨hpc, h1, h2, rfl⟩
  | _ => simp_all

theorem StepEffect.jump_completed {s t : State} (h : StepEffect s t) (ht : t.runState ≠ .faulted)
    (hop : opcAt s = 0x54#8 ∨ TakenAt s) :
    s.pc.toNat < 255 ∧ ∃ h1 : (op1At s).toNat < 8, t = s.setPc (zext9 (s.reg ⟨(op1At s).toNat, h1⟩)) := by
  cases h with
  | jumps hpc _ h1 => exact ⟨hpc, h1, rfl⟩
  | fallsThrough _ hop' => rcases hop with hop | hop | hop <;> simp [hop] at hop'
  | _ => simp_all [TakenAt]

theorem StepEffect.untaken_completed {s t : State} (h : StepEffect s t) (ht : t.runState ≠ .faulted)
    (hop : UntakenAt s) :
    s.pc.toNat < 255 ∧ t = s.setPc (s.pc + 2#9) := by
  cases h with
  | fallsThrough hpc => exact ⟨hpc, rfl⟩
  | jumps _ hop' _ => rcases hop with hop | hop <;> simp [hop] at hop'
  | _ => simp_all [UntakenAt]

end Sys2Proof.Machine
end

section
/-! The ALU block (40_alu.md): its tags, its faults in their order, and what it writes. -/

namespace Sys2Proof.Machine

/-! ### The tags (D16) -/

theorem ofTag_of_mem {tag : BitVec 4} (h : tag ∈ [0x0#4, 0x1#4, 0x2#4, 0x7#4]) : ∃ op, AluOp.ofTag tag = some op := by
  simp only [List.mem_cons, List.not_mem_nil, or_false] at h
  rcases h with rfl | rfl | rfl | rfl
  · exact ⟨.add, rfl⟩
  · exact ⟨.sub, rfl⟩
  · exact ⟨.mul, rfl⟩
  · exact ⟨.cmp, rfl⟩

theorem ofTag_of_not_mem {tag : BitVec 4} (h : tag ∉ [0x0#4, 0x1#4, 0x2#4, 0x7#4]) : AluOp.ofTag tag = none := by
  simp only [List.mem_cons, List.not_mem_nil, or_false, not_or] at h
  obtain ⟨h0, h1, h2, h7⟩ := h
  rw [AluOp.ofTag, if_neg h0, if_neg h1, if_neg h2, if_neg h7]

/-- The tag of an operation other than CMP. -/
theorem mem_of_ofTag {tag : BitVec 4} {op : AluOp} (h : AluOp.ofTag tag = some op) (hne : op ≠ .cmp) :
    tag ∈ [0x0#4, 0x1#4, 0x2#4] := by
  unfold AluOp.ofTag at h
  split_ifs at h with h0 h1 h2 h7
  · simp [h0]
  · simp [h1]
  · simp [h2]
  · exact absurd (Option.some.inj h).symm hne

/-! ### The faults, in their order (60_exceptions.md R137) -/

theorem compute_unsupported {tag : BitVec 4} (ht : AluOp.ofTag tag = none) (regA regB : Byte) (s : State) :
    compute tag regA regB s = .error (.unsupportedOperation tag) := by
  rcases compute_cases tag regA regB s with ⟨-, e⟩ | ⟨⟨op, h⟩, -⟩ | ⟨⟨op, h⟩, -⟩ | ⟨op, _, _, h, -⟩
  · exact e
  all_goals rw [ht] at h; cases h

theorem compute_illegal_regA {tag : BitVec 4} {op : AluOp} {regA : Byte} (ht : AluOp.ofTag tag = some op)
    (ha : 8 ≤ regA.toNat) (regB : Byte) (s : State) :
    compute tag regA regB s = .error (.registerIndex regA) := by
  rcases compute_cases tag regA regB s with ⟨h, -⟩ | ⟨-, -, e⟩ | ⟨-, h, -⟩ | ⟨_, h, -⟩
  · rw [ht] at h; cases h
  · exact e
  · omega
  · omega

theorem compute_illegal_regB {tag : BitVec 4} {op : AluOp} {regA regB : Byte} (ht : AluOp.ofTag tag = some op)
    (ha : regA.toNat < 8) (hb : 8 ≤ regB.toNat) (s : State) :
    compute tag regA regB s = .error (.registerIndex regB) := by
  rcases compute_cases tag regA regB s with ⟨h, -⟩ | ⟨-, h, -⟩ | ⟨-, -, -, e⟩ | ⟨_, _, h, -⟩
  · rw [ht] at h; cases h
  · omega
  · exact e
  · omega

theorem raises_invokeAlu {tag : BitVec 4} {regA regB : Byte} {s : State} {e : CoreError}
    (h : compute tag regA regB s = .error e) : Raises (invokeAlu tag regA regB s) s e := by
  rw [invokeAlu, h]
  exact raises_raise s e

/-- Settles O50: the tag first, then `regA`, then `regB`. -/
theorem aluFaultsInOrder : Obligations.AluFaultsInOrder := by
  unfold Obligations.AluFaultsInOrder
  refine fun s tag regA regB => ⟨fun ht => ?_, fun ht ha => ?_, fun ht ha hb => ?_⟩
  · exact raises_invokeAlu (compute_unsupported (ofTag_of_not_mem ht) regA regB s)
  · obtain ⟨op, hop⟩ := ofTag_of_mem ht
    exact raises_invokeAlu (compute_illegal_regA hop ha regB s)
  · obtain ⟨op, hop⟩ := ofTag_of_mem ht
    exact raises_invokeAlu (compute_illegal_regB hop ha hb s)

/-! ### The results -/

theorem compute_legal {tag : BitVec 4} {op : AluOp} {regA regB : Byte} (ht : AluOp.ofTag tag = some op)
    (ha : regA.toNat < 8) (hb : regB.toNat < 8) (s : State) :
    compute tag regA regB s = op.writeBack s regA (op.result (s.reg ⟨regA.toNat, ha⟩) (s.reg ⟨regB.toNat, hb⟩)) := by
  rcases compute_cases tag regA regB s with ⟨h, -⟩ | ⟨-, h, -⟩ | ⟨-, -, h, -⟩ | ⟨op', _, _, h, e⟩
  · rw [ht] at h; cases h
  · omega
  · omega
  · rw [ht] at h; cases h
    exact e

/-- ADD, SUB and MUL write `x[regA]` (R71 to R73). -/
theorem writeBack_register {op : AluOp} (hne : op ≠ .cmp) {regA : Byte} (ha : regA.toNat < 8) (s : State) (v : Byte) :
    op.writeBack s regA v = .ok (s.setRegs (s.regs.set regA.toNat v ha)) := by
  cases op with
  | add => exact writeReg_ok ha
  | sub => exact writeReg_ok ha
  | mul => exact writeReg_ok ha
  | cmp => exact absurd rfl hne

theorem invokeAlu_register {tag : BitVec 4} {op : AluOp} {regA regB : Byte} (ht : AluOp.ofTag tag = some op)
    (hne : op ≠ .cmp) (ha : regA.toNat < 8) (hb : regB.toNat < 8) (s : State) :
    invokeAlu tag regA regB s = .next (s.setRegs (s.regs.set regA.toNat
      (op.result (s.reg ⟨regA.toNat, ha⟩) (s.reg ⟨regB.toNat, hb⟩)) ha)) := by
  rw [invokeAlu, compute_legal ht ha hb, writeBack_register hne ha, finish_ok]

theorem invokeAlu_cmp {regA regB : Byte} (ha : regA.toNat < 8) (hb : regB.toNat < 8) (s : State) :
    invokeAlu 0x7#4 regA regB s =
      .next (s.setFl (compareFlags (s.reg ⟨regA.toNat, ha⟩) (s.reg ⟨regB.toNat, hb⟩))) := by
  rw [invokeAlu, compute_legal ofTag_cmp ha hb]
  rfl

/-- Arithmetic is modulo 256 (D2). -/
theorem toNat_result_add (a b : Byte) : (AluOp.result .add a b).toNat = (a.toNat + b.toNat) % 256 :=
  BitVec.toNat_add a b

theorem toNat_result_sub (a b : Byte) : (AluOp.result .sub a b).toNat = (a.toNat + 256 - b.toNat) % 256 := by
  have := b.isLt
  rw [AluOp.result, BitVec.toNat_sub]
  omega

theorem toNat_result_mul (a b : Byte) : (AluOp.result .mul a b).toNat = a.toNat * b.toNat % 256 :=
  BitVec.toNat_mul a b

/-- Settles O47: the operation of the tag, its result modulo 256, and the frame of a register write. -/
theorem aluArithmeticWraps : Obligations.AluArithmeticWraps := by
  unfold Obligations.AluArithmeticWraps
  intro s regA regB ha hb a b tag r h
  obtain ⟨op, ht, hne, hr⟩ : ∃ op, AluOp.ofTag tag = some op ∧ op ≠ .cmp ∧
      (op.result (s.reg ⟨regA.toNat, ha⟩) (s.reg ⟨regB.toNat, hb⟩)).toNat = r := by
    rcases h with ⟨rfl, rfl⟩ | ⟨rfl, rfl⟩ | ⟨rfl, rfl⟩
    · exact ⟨.add, rfl, by decide, toNat_result_add _ _⟩
    · exact ⟨.sub, rfl, by decide, toNat_result_sub _ _⟩
    · exact ⟨.mul, rfl, by decide, toNat_result_mul _ _⟩
  exact ⟨_, invokeAlu_register ht hne ha hb s, by rw [reg_set_same, hr], sameRegsExcept_set s _ ha, rfl, rfl, rfl,
    ⟨rfl, rfl, rfl⟩, rfl, fun _ => rfl⟩

/-- Settles O48, by the bits of a comparison. -/
theorem aluCompareReplacesFlags : Obligations.AluCompareReplacesFlags := by
  unfold Obligations.AluCompareReplacesFlags
  refine fun s regA regB ha hb => ⟨_, invokeAlu_cmp ha hb s, flagE_compareFlags _ _, flagL_compareFlags _ _,
    flagG_compareFlags _ _, compareFlags_toNat_lt _ _, ?_, rfl⟩
  rintro rfl
  exact compareFlags_eq rfl

/-- Settles O49: both reads see the old value, so the result is that of the value with itself. -/
theorem aluSameRegisterReadsFirst : Obligations.AluSameRegisterReadsFirst := by
  unfold Obligations.AluSameRegisterReadsFirst
  refine fun s r h => ⟨⟨_, invokeAlu_register (op := .add) rfl (by decide) h h s, ?_⟩,
    ⟨_, invokeAlu_register (op := .sub) rfl (by decide) h h s, ?_⟩,
    ⟨_, invokeAlu_register (op := .mul) rfl (by decide) h h s, ?_⟩⟩
  · rw [reg_set_same, toNat_result_add, two_mul]
  · rw [reg_set_same, toNat_result_sub]
    omega
  · rw [reg_set_same, toNat_result_mul]

/-! ### What an invocation that completes has written -/

theorem writeReg_inv {s t : State} {i v : Byte} (h : writeReg s i v = .ok t) :
    ∃ hi : i.toNat < 8, t = s.setRegs (s.regs.set i.toNat v hi) := by
  rcases writeReg_cases s i v with ⟨hi, e⟩ | ⟨-, e⟩ <;> rw [e] at h <;> cases h
  exact ⟨hi, rfl⟩

/-- ADD, SUB and MUL write one register, CMP writes `FL`. -/
theorem compute_ok_inv {s t : State} {tag : BitVec 4} {regA regB : Byte} (h : compute tag regA regB s = .ok t) :
    (tag ∈ [0x0#4, 0x1#4, 0x2#4] ∧ ∃ (v : Byte) (ha : regA.toNat < 8), t = s.setRegs (s.regs.set regA.toNat v ha)) ∨
      (AluOp.ofTag tag = some .cmp ∧ ∃ f, t = s.setFl f) := by
  rcases compute_cases tag regA regB s with ⟨-, e⟩ | ⟨-, -, e⟩ | ⟨-, -, -, e⟩ | ⟨op, ha, hb, ht, e⟩ <;> rw [e] at h
  · cases h
  · cases h
  · cases h
  · by_cases hop : op = .cmp
    · subst hop
      cases h
      exact .inr ⟨ht, _, rfl⟩
    · rw [writeBack_register hop ha] at h
      cases h
      exact .inl ⟨mem_of_ofTag ht hop, _, ha, rfl⟩

end Sys2Proof.Machine
end

section
/-! Rules about the whole machine (10_state.md sections 1, 3 and 4, 41_execution_engine.md section 2,
44_print_register.md, 70_reset_and_hazards.md section 5): who writes what, read off the effects of a step. -/

namespace Sys2Proof.Machine

/-! ### Registers -/

/-- Only LOAD_IMMEDIATE changes a register, and only the one `op1` names. -/
theorem StepEffect.reg_changed {s t : State} {k : Fin 8} (h : StepEffect s t) (hne : t.reg k ≠ s.reg k) :
    s.pc.toNat < 254 ∧ opcAt s = 0x82#8 ∧ (op1At s).toNat = k.val ∧ t.reg k = op2At s := by
  cases h with
  | loads hpc hop h1 =>
    rw [State.reg_setPc, reg_set] at hne ⊢
    by_cases hk : k.val = (op1At s).toNat
    · exact ⟨hpc, hop, hk.symm, if_pos hk⟩
    · exact absurd (if_neg hk) hne
  | _ => exact absurd rfl hne

/-- A read after a write: the value at the written index, every other read as before, faults included. -/
theorem readReg_of_writeReg {s t : State} {i v : Byte} (h : writeReg s i v = .ok t) (j : Byte) :
    readReg t j = if j = i then .ok v else readReg s j := by
  obtain ⟨hi, rfl⟩ := writeReg_inv h
  rcases Nat.lt_or_ge j.toNat 8 with hj | hj
  · rw [readReg_ok hj, readReg_ok hj, reg_set]
    simp only [BitVec.toNat_inj]
    split <;> rfl
  · rw [readReg_error hj, readReg_error hj, if_neg (by rintro rfl; omega)]

/-- Settles O29: the step by its effects, the ALU by what it writes, the accesses by read after write. -/
theorem registersKeepTheirValues : Obligations.RegistersKeepTheirValues := by
  unfold Obligations.RegistersKeepTheirValues
  refine ⟨fun s t k h => (step_effect h).reg_changed, fun s t tag regA regB k h hne => ?_,
    fun s t i v j h => readReg_of_writeReg h j⟩
  rcases compute_ok_inv h with ⟨htag, v, ha, rfl⟩ | ⟨-, f, rfl⟩
  · refine ⟨?_, htag⟩
    by_contra hk
    exact hne ((reg_set s regA v ha k).trans (if_neg hk))
  · exact absurd rfl hne

/-! ### Flags -/

/-- Only COMPARE changes `FL`. -/
theorem StepEffect.fl_changed {s t : State} (h : StepEffect s t) (hne : t.fl ≠ s.fl) :
    s.pc.toNat < 254 ∧ opcAt s = 0xA7#8 := by
  cases h with
  | compares hpc hop => exact ⟨hpc, hop⟩
  | _ => exact absurd rfl hne

/-- A comparison sets exactly one of E, L and G (R74). -/
theorem compareFlags_oneHot (a b : Byte) :
    (flagE (compareFlags a b), flagL (compareFlags a b), flagG (compareFlags a b)) = (true, false, false) ∨
      (flagE (compareFlags a b), flagL (compareFlags a b), flagG (compareFlags a b)) = (false, true, false) ∨
      (flagE (compareFlags a b), flagL (compareFlags a b), flagG (compareFlags a b)) = (false, false, true) := by
  rcases compareFlags_cases a b with ⟨-, e⟩ | ⟨-, e⟩ | ⟨-, e⟩ <;> rw [e]
  · exact .inl rfl
  · exact .inr (.inl rfl)
  · exact .inr (.inr rfl)

/-- The effect from a state with another `FL`, of the same E where a conditional jump reads it: the same otherwise, with
that `FL` kept or, after a COMPARE, the same `FL` written. -/
theorem StepEffect.with_fl {s t : State} {f : Byte} (h : StepEffect s t)
    (hE : opcAt s ∈ [0x55#8, 0x56#8] → flagE f = flagE s.fl) :
    (t.fl = s.fl ∧ StepEffect (s.setFl f) (t.setFl f)) ∨ StepEffect (s.setFl f) t := by
  have h55 : ∀ b, opcAt s = 0x55#8 ∧ flagE s.fl = b → opcAt s = 0x55#8 ∧ flagE f = b :=
    fun _ ⟨hop, hb⟩ => ⟨hop, (hE (by simp [hop])).trans hb⟩
  have h56 : ∀ b, opcAt s = 0x56#8 ∧ flagE s.fl = b → opcAt s = 0x56#8 ∧ flagE f = b :=
    fun _ ⟨hop, hb⟩ => ⟨hop, (hE (by simp [hop])).trans hb⟩
  cases h with
  | opcodeFetchFault hpc => exact .inl ⟨rfl, .opcodeFetchFault (s := s.setFl f) hpc⟩
  | unknownOpcode hpc hop => exact .inl ⟨rfl, .unknownOpcode (s := s.setFl f) hpc hop⟩
  | op1FetchFault hpc hop => exact .inl ⟨rfl, .op1FetchFault (s := s.setFl f) hpc hop⟩
  | op2FetchFault hpc hop => exact .inl ⟨rfl, .op2FetchFault (s := s.setFl f) hpc hop⟩
  | op1IndexFault2 hpc hop hi => exact .inl ⟨rfl, .op1IndexFault2 (s := s.setFl f) hpc hop hi⟩
  | op1IndexFault1 hpc hop hi =>
    exact .inl ⟨rfl, .op1IndexFault1 (s := s.setFl f) hpc (hop.imp_right (.imp (h55 _) (h56 _))) hi⟩
  | op2IndexFault hpc hop h1 hi => exact .inl ⟨rfl, .op2IndexFault (s := s.setFl f) hpc hop h1 hi⟩
  | halts hpc hop => exact .inl ⟨rfl, .halts (s := s.setFl f) hpc hop⟩
  | loads hpc hop h1 => exact .inl ⟨rfl, .loads (s := s.setFl f) hpc hop h1⟩
  | prints hpc hop h1 => exact .inl ⟨rfl, .prints (s := s.setFl f) hpc hop h1⟩
  | compares hpc hop h1 h2 => exact .inr (.compares (s := s.setFl f) hpc hop h1 h2)
  | jumps hpc hop h1 => exact .inl ⟨rfl, .jumps (s := s.setFl f) hpc (hop.imp_right (.imp (h55 _) (h56 _))) h1⟩
  | fallsThrough hpc hop => exact .inl ⟨rfl, .fallsThrough (s := s.setFl f) hpc (hop.imp (h55 _) (h56 _))⟩

/-- Settles O30: the writer and the readers by the effects of a step, the ALU by what it writes. -/
theorem flagWritersAndReaders : Obligations.FlagWritersAndReaders := by
  unfold Obligations.FlagWritersAndReaders
  refine ⟨fun s t h => (step_effect h).fl_changed, fun s t h ht hop => ?_, fun s t tag regA regB htag h => ?_,
    fun s t f h hE => ?_, fun _ => rfl⟩
  · obtain ⟨-, _, _, rfl⟩ := (step_effect h).compare_completed ht hop
    exact ⟨compareFlags_toNat_lt _ _, compareFlags_oneHot _ _⟩
  · rcases compute_ok_inv h with ⟨-, v, ha, rfl⟩ | ⟨hcmp, -⟩
    · rfl
    · simp only [List.mem_cons, List.not_mem_nil, or_false] at htag
      rcases htag with rfl | rfl | rfl <;> cases hcmp
  · have hr := step_next_running h
    rcases (step_effect h).with_fl hE with ⟨hfl, h'⟩ | h'
    · exact ⟨f, step_of_effect (s := s.setFl f) hr h', .inl ⟨hfl, rfl⟩⟩
    · exact ⟨t.fl, step_of_effect (s := s.setFl f) hr h', .inr rfl⟩

/-! ### Output -/

/-- Only PRINT_REGISTER changes `OUT`, by the register that `op1` names. -/
theorem StepEffect.out_changed {s t : State} (h : StepEffect s t) (hne : t.out ≠ s.out) :
    s.pc.toNat < 255 ∧ opcAt s = 0x47#8 ∧
      ∃ k : Fin 8, (op1At s).toNat = k.val ∧ t.out = s.out ++ [s.reg k] := by
  cases h with
  | prints hpc hop h1 => exact ⟨hpc, hop, ⟨_, h1⟩, rfl, rfl⟩
  | _ => exact absurd rfl hne

/-- The effect from a state with another `OUT`: the same otherwise, with the same values appended. -/
theorem StepEffect.with_out {s t : State} (h : StepEffect s t) (o : List Byte) :
    (t.out = s.out ∧ StepEffect (s.setOut o) (t.setOut o)) ∨
      ∃ v, t.out = s.out ++ [v] ∧ StepEffect (s.setOut o) (t.setOut (o ++ [v])) := by
  cases h with
  | opcodeFetchFault hpc => exact .inl ⟨rfl, .opcodeFetchFault (s := s.setOut o) hpc⟩
  | unknownOpcode hpc hop => exact .inl ⟨rfl, .unknownOpcode (s := s.setOut o) hpc hop⟩
  | op1FetchFault hpc hop => exact .inl ⟨rfl, .op1FetchFault (s := s.setOut o) hpc hop⟩
  | op2FetchFault hpc hop => exact .inl ⟨rfl, .op2FetchFault (s := s.setOut o) hpc hop⟩
  | op1IndexFault2 hpc hop hi => exact .inl ⟨rfl, .op1IndexFault2 (s := s.setOut o) hpc hop hi⟩
  | op1IndexFault1 hpc hop hi => exact .inl ⟨rfl, .op1IndexFault1 (s := s.setOut o) hpc hop hi⟩
  | op2IndexFault hpc hop h1 hi => exact .inl ⟨rfl, .op2IndexFault (s := s.setOut o) hpc hop h1 hi⟩
  | halts hpc hop => exact .inl ⟨rfl, .halts (s := s.setOut o) hpc hop⟩
  | loads hpc hop h1 => exact .inl ⟨rfl, .loads (s := s.setOut o) hpc hop h1⟩
  | prints hpc hop h1 => exact .inr ⟨_, rfl, .prints (s := s.setOut o) hpc hop h1⟩
  | compares hpc hop h1 h2 => exact .inl ⟨rfl, .compares (s := s.setOut o) hpc hop h1 h2⟩
  | jumps hpc hop h1 => exact .inl ⟨rfl, .jumps (s := s.setOut o) hpc hop h1⟩
  | fallsThrough hpc hop => exact .inl ⟨rfl, .fallsThrough (s := s.setOut o) hpc hop⟩

/-- A step with another `OUT` appends the same to it and does the same otherwise. -/
theorem step_with_out {s t : State} (h : step s = .next t) (o : List Byte) :
    ∃ d, t.out = s.out ++ d ∧ step (s.setOut o) = .next (t.setOut (o ++ d)) := by
  have hr := step_next_running h
  rcases (step_effect h).with_out o with ⟨hout, h'⟩ | ⟨v, hout, h'⟩
  · exact ⟨[], by rw [hout, List.append_nil], by rw [List.append_nil]; exact step_of_effect (s := s.setOut o) hr h'⟩
  · exact ⟨[v], hout, step_of_effect (s := s.setOut o) hr h'⟩

/-- A run only extends `OUT`. -/
theorem out_prefix_run (s : State) (fuel : Nat) : s.out <+: (run s fuel).out := by
  refine run_keeps (P := fun u => s.out <+: u.out) (fun u w hu h => ?_) (List.prefix_refl _) fuel
  obtain ⟨d, hd, -⟩ := step_with_out h []
  exact hu.trans ⟨d, hd.symm⟩

/-- Settles O31, by the effects of a step and their sum along a run. -/
theorem outputIsOnlyAppendedTo : Obligations.OutputIsOnlyAppendedTo := by
  unfold Obligations.OutputIsOnlyAppendedTo
  exact ⟨fun s t h => (step_effect h).out_changed, fun s t o h => step_with_out h o, out_prefix_run, fun _ => rfl⟩

/-- A step that leaves `OUT` as it was shows nothing on the port. -/
theorem outPort_of_out_eq {s t : State} (h : t.out = s.out) : outPort s t = none := by
  simp [outPort, h]

/-- Settles O40: a value on the port was appended, and a completed PRINT_REGISTER appends one. -/
theorem outputPortIsValidOnlyForAPrint : Obligations.OutputPortIsValidOnlyForAPrint := by
  unfold Obligations.OutputPortIsValidOnlyForAPrint
  refine fun s t h v => ⟨fun hv => ?_, ?_⟩
  · have hne : t.out ≠ s.out := fun hout => by rw [outPort_of_out_eq hout] at hv; cases hv
    obtain ⟨-, hop, k, hk, hout⟩ := (step_effect h).out_changed hne
    have hkv : s.reg k = v := Option.some.inj ((outPort_of_append hout).symm.trans hv)
    refine ⟨fun ht => ?_, hop, k, hk, hkv⟩
    obtain ⟨e, rfl⟩ := step_faulted_eq_raise h ht
    exact hne rfl
  · rintro ⟨ht, hop, k, hk, rfl⟩
    obtain ⟨-, h1, rfl⟩ := (step_effect h).printRegister_completed ht hop
    rw [outPort_of_append (v := s.reg ⟨(op1At s).toNat, h1⟩) rfl]
    exact congrArg (fun j => some (s.reg j)) (Fin.ext hk)

/-! ### The program counter -/

/-- A jump's target, as a register that `op1` names. -/
theorem StepEffect.jump_target {s t : State} (h : StepEffect s t) (ht : t.runState ≠ .faulted)
    (hop : opcAt s = 0x54#8 ∨ TakenAt s) :
    ∃ k : Fin 8, (op1At s).toNat = k.val ∧ t.pc.toNat = (s.reg k).toNat := by
  obtain ⟨-, h1, rfl⟩ := h.jump_completed ht hop
  exact ⟨⟨_, h1⟩, rfl, toNat_zext9 _⟩

/-- An untaken conditional jump advances, inside memory or to its end. -/
theorem StepEffect.untaken_pc {s t : State} (h : StepEffect s t) (ht : t.runState ≠ .faulted)
    (hop : UntakenAt s) :
    t.pc.toNat = s.pc.toNat + 2 ∧ s.pc.toNat + 2 ≤ 256 := by
  obtain ⟨hpc, rfl⟩ := h.untaken_completed ht hop
  exact ⟨toNat_add_two (by omega), by omega⟩

/-- Settles O32: a fault entry keeps `pc`; what a completed instruction leaves there goes by its opcode. -/
theorem handlersOwnThePc : Obligations.HandlersOwnThePc := by
  unfold Obligations.HandlersOwnThePc
  intro s t h
  have hs := step_effect h
  refine ⟨fun ht => ?_, fun ht => ?_⟩
  · obtain ⟨e, rfl⟩ := step_faulted_eq_raise h ht
    rfl
  refine ⟨fun hop => ?halt, fun hop => ?threeBytes, fun hop => ?print, fun hop => hs.jump_target ht (.inl hop),
    fun hop => ⟨fun hE => hs.jump_target ht (.inr (.inl ⟨hop, hE⟩)), fun hE => hs.untaken_pc ht (.inl ⟨hop, hE⟩)⟩,
    fun hop => ⟨fun hE => hs.jump_target ht (.inr (.inr ⟨hop, hE⟩)), fun hE => hs.untaken_pc ht (.inr ⟨hop, hE⟩)⟩⟩
  case halt =>
    obtain rfl := hs.halt_completed ht hop
    rfl
  case threeBytes =>
    simp only [List.mem_cons, List.not_mem_nil, or_false] at hop
    rcases hop with hop | hop
    · obtain ⟨hpc, h1, rfl⟩ := hs.loadImmediate_completed ht hop
      exact ⟨toNat_add_three (by omega), by omega⟩
    · obtain ⟨hpc, h1, h2, rfl⟩ := hs.compare_completed ht hop
      exact ⟨toNat_add_three (by omega), by omega⟩
  case print =>
    obtain ⟨hpc, h1, rfl⟩ := hs.printRegister_completed ht hop
    exact ⟨toNat_add_two (by omega), by omega⟩

/-! ### The ends of a run -/

theorem ended_iff {s : State} : Ended s ↔ ¬∃ t, step s = .next t := by
  cases hr : s.runState with
  | running => simp [Ended, hr, step_exists hr]
  | halted => simp [Ended, hr, step_halted hr]
  | faulted => simp [Ended, hr, step_faulted hr]

/-- Only HALT leads from RUNNING into HALTED. -/
theorem StepEffect.halted_inv {s t : State} (h : StepEffect s t) (hr : s.runState = .running)
    (ht : t.runState = .halted) :
    s.pc.toNat < 256 ∧ opcAt s = 0x01#8 ∧ t = (s.setPc 0#9).setRunState .halted := by
  cases h with
  | halts hpc hop => exact ⟨hpc, hop, rfl⟩
  | _ => simp [hr] at ht

/-- The four errors have the codes 1 to 4 (D12). -/
theorem cause_code_range (e : CoreError) : 1 ≤ e.cause.code.toNat ∧ e.cause.code.toNat ≤ 4 := by
  cases e <;> simp [CoreError.cause, FaultCause.code]

/-- Settles O34: the ends take no step; HALTED comes from HALT, FAULTED from a fault entry. -/
theorem endsOfARun : Obligations.EndsOfARun := by
  unfold Obligations.EndsOfARun
  refine ⟨fun s => ended_iff, fun s t hi h ht => ?_, fun s t h ht => ?_⟩
  · have hr := step_next_running h
    obtain ⟨hpc, hop, rfl⟩ := (step_effect h).halted_inv hr ht
    have hcause : s.faultCause = .none := (hi.faultClear (by simp [hr])).1
    exact ⟨hpc, hop, rfl, congrArg FaultCause.code hcause, fun _ => rfl, rfl, rfl⟩
  · obtain ⟨e, rfl⟩ := step_faulted_eq_raise h ht
    obtain ⟨hlow, hhigh⟩ := cause_code_range e
    exact ⟨hlow, hhigh, fun _ => rfl, rfl, rfl, rfl, fun _ => rfl⟩

end Sys2Proof.Machine
end

section
/-! Runs (41_execution_engine.md section 3): they compose, keep memory and end once. -/

namespace Sys2Proof.Machine

theorem run_mem (s : State) (fuel : Nat) : (run s fuel).mem = s.mem :=
  run_keeps (P := fun u => u.mem = s.mem) (fun _ _ hu h => (step_mem h).trans hu) rfl fuel

/-- Settles O37: no step writes memory. -/
theorem memoryIsConstantAlongARun : Obligations.MemoryIsConstantAlongARun := by
  unfold Obligations.MemoryIsConstantAlongARun
  exact run_mem

/-- A state either has ended or steps. -/
theorem ended_or_step (s : State) : Ended s ∨ ∃ t, step s = .next t := by
  by_cases h : Ended s
  · exact .inl h
  · exact .inr (not_not.1 (mt ended_iff.2 h))

theorem run_add (s : State) (m n : Nat) : run s (m + n) = run (run s m) n := by
  induction m generalizing s with
  | zero => rw [Nat.zero_add, run_zero]
  | succ m ih =>
    rcases ended_or_step s with h | ⟨t, h⟩
    · simp only [run_of_ended h]
    · rw [Nat.succ_add, run_succ_of_next h, run_succ_of_next h, ih]

/-- Once a run has ended, more fuel changes nothing. -/
theorem run_of_ended_le {s : State} {m n : Nat} (h : Ended (run s m)) (hmn : m ≤ n) : run s n = run s m := by
  rw [← Nat.add_sub_cancel' hmn, run_add, run_of_ended h]

/-- Two ends of one run are the same state. -/
theorem run_end_unique {s : State} {m n : Nat} (hm : Ended (run s m)) (hn : Ended (run s n)) : run s m = run s n := by
  rcases Nat.le_total m n with h | h
  · exact (run_of_ended_le hm h).symm
  · exact run_of_ended_le hn h

/-- Settles O38: composition by induction on the fuel, one end by composition. -/
theorem runsComposeAndEndOnce : Obligations.RunsComposeAndEndOnce := by
  unfold Obligations.RunsComposeAndEndOnce
  refine ⟨fun s n h => run_of_ended h n, run_add, fun s c n => ⟨rfl, rfl⟩, ?_⟩
  rintro s ⟨m, hm⟩ n hn
  rw [run_end_unique (.inr hn) (.inl hm), hm] at hn
  cases hn

/-- A state that steps to itself is where its run stays. -/
theorem run_of_step_self {s : State} (h : step s = .next s) (fuel : Nat) : run s fuel = s := by
  induction fuel with
  | zero => rfl
  | succ fuel ih => rw [run_succ_of_next h, ih]

/-- Settles O39: the jump to its own address steps to the very same state. -/
theorem selfJumpRunsForEver : Obligations.SelfJumpRunsForEver := by
  unfold Obligations.SelfJumpRunsForEver
  intro s k hr hpc hop hk hself fuel
  have h1 : (op1At s).toNat < 8 := by rw [op1At, hk]; exact k.isLt
  have hreg : s.reg ⟨(op1At s).toNat, h1⟩ = s.reg k := congrArg s.reg (Fin.ext hk)
  have hstep : step s = .next s := by
    have h := step_of_effect hr (.jumps hpc (.inl hop) h1)
    rwa [setPc_zext9_self (hreg ▸ hself)] at h
  have hrun : run s fuel = s := run_of_step_self hstep fuel
  exact ⟨hrun, by rw [hrun, hr]⟩

end Sys2Proof.Machine
end

section
/-! The host's side (70_reset_and_hazards.md R172, 60_exceptions.md R145, 44_print_register.md R113) and the status
group (10_state.md R26): exit status and message of every end, the printed text, the fault signals. -/

namespace Sys2Proof.Machine

/-! ### The report on an end state -/

theorem hostReport_running {s : State} (h : s.runState = .running) : hostReport (.ok s) = none := by
  rw [hostReport_ok, exitStatus_running h, Option.map_none]

theorem hostReport_halted {s : State} (h : s.runState = .halted) :
    exitStatus s = some 0 ∧ hostReport (.ok s) = some ⟨0, none⟩ := by
  rcases exitStatus_of_ended (.inl h) with ⟨-, hstatus, hmsg⟩ | ⟨h', -⟩ | ⟨h', -⟩
  · exact ⟨hstatus, by rw [hostReport_ok, hstatus, hmsg, Option.map_some]⟩
  · rw [h] at h'; cases h'
  · rw [h] at h'; cases h'

theorem hostReport_unknownOpcode {s : State} (h : s.runState = .faulted) (hc : s.faultCause = .unknownOpcode) :
    exitStatus s = some 1 ∧ hostReport (.ok s) = some ⟨1, some (.unrecognizedOpcode (s.faultInfo.setWidth 8))⟩ := by
  rcases exitStatus_of_ended (.inr h) with ⟨h', -⟩ | ⟨-, -, hstatus, hmsg⟩ | ⟨-, hc', -⟩
  · rw [h] at h'; cases h'
  · exact ⟨hstatus, by rw [hostReport_ok, hstatus, hmsg, Option.map_some]⟩
  · exact absurd hc hc'

theorem hostReport_otherFault {s : State} (h : s.runState = .faulted) (hc : s.faultCause ≠ .unknownOpcode) :
    exitStatus s = some Config.exitCodeOther ∧ hostReport (.ok s) = some ⟨Config.exitCodeOther, none⟩ := by
  rcases exitStatus_of_ended (.inr h) with ⟨h', -⟩ | ⟨-, hc', -⟩ | ⟨-, -, hstatus, hmsg⟩
  · rw [h] at h'; cases h'
  · exact absurd hc' hc
  · exact ⟨hstatus, by rw [hostReport_ok, hstatus, hmsg, Option.map_some]⟩

theorem exitCodeOther_ne_zero : Config.exitCodeOther ≠ 0 := Nat.succ_ne_zero _

theorem exitCodeLoadFailed_ne_zero : Config.exitCodeLoadFailed ≠ 0 := Nat.succ_ne_zero _

/-- Settles O51, end by end. -/
theorem exitStatusOfEachEnd : Obligations.ExitStatusOfEachEnd := by
  unfold Obligations.ExitStatusOfEachEnd
  refine ⟨fun s => ⟨fun h => ⟨exitStatus_running h, hostReport_running h⟩, hostReport_halted, hostReport_unknownOpcode,
    fun h hc => ?_⟩, fun e => ⟨_, hostReport_error e, exitCodeLoadFailed_ne_zero⟩⟩
  obtain ⟨hstatus, hreport⟩ := hostReport_otherFault h hc
  exact ⟨_, hstatus, exitCodeOther_ne_zero, hreport⟩

/-! ### The process, from the image to its end -/

theorem dispatch_of_lengthFromOpcode_none {opc : Byte} (h : lengthFromOpcode opc = none) : dispatch opc = none := by
  cases hd : dispatch opc with
  | none => rfl
  | some handler => cases handler <;> simp [lengthFromOpcode, hd] at h

theorem setWidth_zext9 (v : Byte) : (zext9 v).setWidth 8 = v := by
  refine BitVec.eq_of_toNat_eq ?_
  rw [BitVec.toNat_setWidth, toNat_zext9]
  exact Nat.mod_eq_of_lt v.isLt

/-- In a state of a run, an UnknownOpcodeError records the byte that memory holds at `pc`, which is no opcode. -/
theorem Inv.unknownOpcode_record {s : State} (hi : Inv s) (h : s.runState = .faulted)
    (hc : s.faultCause = .unknownOpcode) :
    s.faultInfo.setWidth 8 = opcAt s ∧ opcAt s ∉ [0x01#8, 0x82#8, 0x47#8, 0xA7#8, 0x54#8, 0x55#8, 0x56#8] := by
  obtain ⟨-, ⟨-, -, hinfo, hlen⟩ | ⟨hc', -⟩ | ⟨hc', -⟩⟩ := hi.faultRecord h
  · exact ⟨by rw [hinfo, setWidth_zext9], dispatch_none (dispatch_of_lengthFromOpcode_none hlen)⟩
  · rw [hc] at hc'; cases hc'
  · rw [hc] at hc'; cases hc'

/-- A report is given on an end state only. -/
theorem ended_of_hostReport {s : State} {r : HostReport} (h : hostReport (.ok s) = some r) : Ended s := by
  cases hr : s.runState with
  | running => rw [hostReport_running hr] at h; cases h
  | halted => exact .inl hr
  | faulted => exact .inr hr

/-- A report, once given, stays. -/
theorem processEnd_stable {image : List Byte} {fuel : Nat} {r : HostReport} (h : processEnd image fuel = some r)
    (more : Nat) : processEnd image (fuel + more) = some r := by
  rcases launch_cases image with ⟨-, e⟩ | ⟨-, e⟩
  · rw [processEnd_of_launch_ok e] at h ⊢
    rwa [run_of_ended_le (ended_of_hostReport h) (Nat.le_add_right fuel more)]
  · rw [processEnd_of_launch_error e] at h ⊢
    exact h

/-- Settles O52: the report on the state that the launched run has come to; the byte it names is the image's, since a
run keeps memory and the invariant. -/
theorem processEndOfEveryImage : Obligations.ProcessEndOfEveryImage := by
  unfold Obligations.ProcessEndOfEveryImage
  refine fun image fuel => ⟨fun hlong => ?_, fun hfit => ⟨_, launch_ok hfit, ?_⟩,
    fun r more h => processEnd_stable h more⟩
  · exact ⟨_, (processEnd_of_launch_error (launch_error hlong) fuel).trans (hostReport_error _),
      exitCodeLoadFailed_ne_zero⟩
  · intro t
    have hend : processEnd image fuel = hostReport (.ok t) := processEnd_of_launch_ok (launch_ok hfit) fuel
    refine ⟨fun h => hend.trans (hostReport_running h), fun h => hend.trans (hostReport_halted h).2, fun h hc => ?_,
      fun h hc => ⟨_, hend.trans (hostReport_otherFault h hc).2, exitCodeOther_ne_zero⟩⟩
    have hbyte : opcAt t = image.getD t.pc.toNat 0x00#8 := by
      rw [opcAt, run_mem]
      exact launchedState_byteAt hfit _
    obtain ⟨hinfo, hop⟩ := (run_launchedState_inv image fuel).unknownOpcode_record h hc
    have hreport := (hostReport_unknownOpcode h hc).2
    rw [hinfo] at hreport
    rw [← hbyte]
    exact ⟨hend.trans hreport, hop⟩

/-! ### The printed text (R113) -/

/-- The decimal digits of a byte, by how many there are. -/
theorem decimalText_cases (v : Byte) :
    (v.toNat < 10 ∧ decimalText v = [digitChar v.toNat]) ∨
    (10 ≤ v.toNat ∧ v.toNat < 100 ∧ decimalText v = [digitChar (v.toNat / 10), digitChar v.toNat]) ∨
    (100 ≤ v.toNat ∧
      decimalText v = [digitChar (v.toNat / 100), digitChar (v.toNat / 10), digitChar v.toNat]) := by
  unfold decimalText
  split_ifs with h1 h2
  · exact .inl ⟨h1, rfl⟩
  · exact .inr (.inl ⟨by omega, h2, rfl⟩)
  · exact .inr (.inr ⟨by omega, rfl⟩)

theorem digitChar_ne_zero {n : Nat} (h : n % 10 ≠ 0) : digitChar n ≠ '0' := by
  intro he
  have hn : (digitChar n).toNat = 48 := congrArg Char.toNat he
  rw [digitChar_toNat] at hn
  omega

theorem decimalText_value (v : Byte) :
    (decimalText v).foldl (fun n c => 10 * n + (c.toNat - 48)) 0 = v.toNat := by
  have := v.isLt
  rcases decimalText_cases v with ⟨h, e⟩ | ⟨h1, h2, e⟩ | ⟨h, e⟩ <;> rw [e] <;>
    simp only [List.foldl_cons, List.foldl_nil, digitChar_toNat] <;> omega

theorem digitChar_range (n : Nat) : 48 ≤ (digitChar n).toNat ∧ (digitChar n).toNat ≤ 57 := by
  rw [digitChar_toNat]
  omega

theorem decimalText_digits {v : Byte} {c : Char} (hc : c ∈ decimalText v) : ∃ n, c = digitChar n := by
  rcases decimalText_cases v with ⟨-, e⟩ | ⟨-, -, e⟩ | ⟨-, e⟩ <;> rw [e] at hc <;>
    simp only [List.mem_cons, List.not_mem_nil, or_false] at hc
  · exact ⟨_, hc⟩
  · rcases hc with hc | hc <;> exact ⟨_, hc⟩
  · rcases hc with hc | hc | hc <;> exact ⟨_, hc⟩

theorem decimalText_no_leading_zero {v : Byte} (h : 10 ≤ v.toNat) : (decimalText v).head? ≠ some '0' := by
  have := v.isLt
  rcases decimalText_cases v with ⟨h', -⟩ | ⟨-, h2, e⟩ | ⟨h3, e⟩
  · omega
  · rw [e]
    exact fun he => digitChar_ne_zero (by omega) (Option.some.inj he)
  · rw [e]
    exact fun he => digitChar_ne_zero (by omega) (Option.some.inj he)

theorem decimalText_one_digit {v : Byte} (h : v.toNat < 10) : (decimalText v).length = 1 := by
  rw [decimalText, if_pos h, List.length_singleton]

/-- Settles O53, by the number of digits; the text of `OUT` grows by what is appended. -/
theorem printedTextIsDecimal : Obligations.PrintedTextIsDecimal := by
  unfold Obligations.PrintedTextIsDecimal
  refine ⟨fun v => ⟨decimalText_value v, fun c hc => ?_, decimalText_no_leading_zero, decimalText_one_digit⟩,
    fun s v => ?_⟩
  · obtain ⟨n, rfl⟩ := decimalText_digits hc
    exact digitChar_range n
  · simp [hostOutput]

/-! ### The status group -/

theorem runState_code_ne_three (r : RunState) : r.code ≠ 3#2 := by
  cases r <;> decide

theorem faultCause_code_lt (c : FaultCause) : c.code.toNat < 6 := by
  cases c <;> decide

/-- In a state of a run the cause is none of the two that no step sets (R134, R135). -/
theorem Inv.faultCause_code_le {s : State} (hi : Inv s) : s.faultCause.code.toNat ≤ 3 := by
  by_cases h : s.runState = .faulted
  · obtain ⟨-, ⟨hc, -⟩ | ⟨hc, -⟩ | ⟨hc, -⟩⟩ := hi.faultRecord h <;> rw [hc] <;> decide
  · obtain ⟨hc, -, -⟩ := hi.faultClear h
    rw [hc]
    decide

/-- Settles O54: the codes value by value, the raises from what `raise` writes, the rest from the invariant. -/
theorem statusPortInNumbers : Obligations.StatusPortInNumbers := by
  unfold Obligations.StatusPortInNumbers
  intro s
  have hrun : ∀ r, s.runState = r → (statusPort s).state = r.code := fun _ h => congrArg RunState.code h
  have hcause : ∀ c, s.faultCause = c → (statusPort s).faultCause = c.code := fun _ h => congrArg FaultCause.code h
  refine ⟨hrun _, hrun _, hrun _, runState_code_ne_three _, faultCause_code_lt _, hcause _, hcause _, hcause _,
    hcause _, hcause _, hcause _, rfl, rfl, fun e => ?_, fun hi h => ?_, Inv.faultCause_code_le⟩
  · obtain ⟨hstate, hpc, -, -, -, -, -, herrors⟩ := raiseWritesOnlyTheFaultFields s e
    exact ⟨hstate, hpc, herrors⟩
  · obtain ⟨hc, hinfo, hpc⟩ := hi.faultClear h
    exact ⟨hcause _ hc, hinfo, hpc⟩

end Sys2Proof.Machine
end
